-- ==== Sys2Proof/Word.lean ====
section
/-! DEFINITION. The value types of ENC14 (spec/00_scope.md R6, R8): bytes, 16-bit units, segment masks, and the
(address, bit) locations of the shadow RAM. Bit `k` of every value has weight `2^k` (R8, R33, R34). -/

namespace Sys2Proof

/-- An input character, or one shadow byte: `CHAR_W = 8` (R6, R16). -/
abbrev Byte := BitVec 8

/-- A command word or a `Value` output: one 16-bit unit (R27, R35, R48). -/
abbrev Word := BitVec 16

/-- A SegmentMask, `MASK_W = 14`: bit `s` belongs to segment number `s` (R6, R10, R34). -/
abbrev SegMask := BitVec 14

/-- A shadow address, 4 bits (R30); every 4-bit address is valid (R36). -/
abbrev Addr := BitVec 4

/-- One bit of the shadow RAM: the byte at `addr`, bit `bit` of it, of weight `2^bit` (R33). -/
structure Loc where
  addr : Addr
  bit  : BitVec 3
  deriving DecidableEq, Repr

/-- The segment region (R39): addresses 0, 2, …, 12, every bit. -/
def Loc.inRegion (l : Loc) : Bool :=
  l.addr.toNat % 2 == 0 && decide (l.addr.toNat ≤ 12)

end Sys2Proof
end

