-- ==== Sys2Proof/Config.lean ====
section
/-! DEFINITION. The fixed parameters of ENC14 (spec/00_scope.md R6), its open parameters `SEG_TABLE`, `DEC_LOC` and
`COL_LOC` (R7) as one configuration record with its well-formedness check (R40, R67, R133), and the free values of this
model: constants without a body, of which nothing can be proved. -/

namespace Sys2Proof

/-! ## Fixed parameters (R6)

`TABLE_N = 96`, `N_SEG = 14`, `N_DIGITS = 4`, `SHADOW_BYTES = 16`, `N_COM = 7` and `WRITE_CAP = 4` stand as numerals where
they are used; the indices and the opcode have names. -/

/-- `IDX_SPACE`. -/
abbrev idxSpace : Fin 96 := 0

/-- `IDX_DECIMAL`, the index of `.`. -/
abbrev idxDecimal : Fin 96 := 14

/-- `IDX_COLON`, the index of `:`. -/
abbrev idxColon : Fin 96 := 26

/-- `IDX_UNKNOWN`, the sentinel's index. -/
abbrev idxUnknown : Fin 96 := 95

/-- `RAM_WRITE_OPCODE`, the first byte of every frame. -/
abbrev ramWriteOpcode : Byte := 0x00

/-! ## The configuration (R7) -/

/-- The open parameters of R7. They are configuration, not state: no command changes them (R15, R23). -/
structure Config where
  /-- `SEG_TABLE`: 96 masks of 14 bits (R23, R31). -/
  segTable : Vector SegMask 96
  /-- `DEC_LOC`: where the decimal-on flag is kept (R21). -/
  decLoc : Loc
  /-- `COL_LOC`: where the colon-on flag is kept (R22). -/
  colLoc : Loc
  deriving DecidableEq, Repr

/-- `WellFormedConfig` (R133): the two fixed table entries (R67), and the flag locations outside the segment region
and different from each other (R40). -/
abbrev Config.wf (c : Config) : Prop :=
  c.segTable[idxSpace] = 0x0000 ∧ c.segTable[idxUnknown] = 0x3FFF ∧
    c.decLoc.inRegion = false ∧ c.colLoc.inRegion = false ∧ c.decLoc ≠ c.colLoc

/-! ## What is left open: constants without a body -/

/-- The masks of table entries 1 to 94 (R7, R68; log entry 2). -/
opaque Config.glyph : Nat → SegMask

/-- Which of the 72 locations outside the segment region is `DEC_LOC` (R7, R40; log entry 2). -/
opaque Config.decPick : Fin 72

/-- Which of the 71 locations then left is `COL_LOC` (R7, R40; log entry 2). -/
opaque Config.colPick : Fin 71

/-- The bytes a reset that the host issues leaves in `SHADOW` (R28: any 16 bytes; log entry 5). -/
opaque Config.freeByte : Nat → Byte

/-- The value such a reset leaves in `DIGIT_POS` (R28: any of 0..7; log entry 5). -/
opaque Config.freeDigit : Nat → BitVec 3

/-- The 72 locations outside the segment region, numbered: the eight odd addresses, then address 14 (R39, R41). -/
def Config.freeLoc (n : Nat) : Loc :=
  if n < 64 then ⟨BitVec.ofNat 4 (2 * (n / 8) + 1), BitVec.ofNat 3 n⟩ else ⟨14, BitVec.ofNat 3 n⟩

/-- A table with the two fixed entries of R67 and the entries 1..94 as `glyph` gives them. -/
def Config.tableOf (glyph : Nat → SegMask) : Vector SegMask 96 :=
  Vector.ofFn fun i => if i = idxSpace then 0x0000 else if i = idxUnknown then 0x3FFF else glyph i.val

/-- The configuration with the glyphs `glyph`, whose decimal flag is free location `d` and whose colon flag is free
location `c` of the 71 others. -/
def Config.ofChoices (glyph : Nat → SegMask) (d c : Nat) : Config where
  segTable := Config.tableOf glyph
  decLoc := Config.freeLoc d
  colLoc := Config.freeLoc (if c < d then c else c + 1)

/-- The configuration of the machine at `State.reset`: well-formed, and open wherever R7 leaves it open. -/
def Config.installed : Config :=
  Config.ofChoices Config.glyph Config.decPick.val Config.colPick.val

end Sys2Proof
end

