-- ==== Sys2Proof/Syntax.lean ====
section
/-! DEFINITION. The ten commands of ENC14 (spec/30_encoding.md R51), one constructor for each row of
spec/opcode_table.json, each operand of the width of its field (R49, R50). -/

namespace Sys2Proof

/-- A command. An operand is an unsigned number of its field's width (R50). -/
inductive Instr where
  /-- `NOP` (R94). -/
  | nop
  /-- `INDEX C` (R71). -/
  | index (c : Byte)
  /-- `LOOKUP I`, legal for `I` in 0..95 (R72). -/
  | lookup (i : BitVec 7)
  /-- `LOCATE S, D`, legal for `S` in 0..13 (R80). -/
  | locate (s : BitVec 4) (d : BitVec 2)
  /-- `RENDER_AT C, D` (R87). -/
  | renderAt (c : Byte) (d : BitVec 2)
  /-- `PUTC C` (R88). -/
  | putc (c : Byte)
  /-- `RESET_BUF` (R95). -/
  | resetBuf
  /-- `CLEAR` (R96). -/
  | clear
  /-- `READ A` (R97). -/
  | read (a : Addr)
  /-- `SYNC` (R98). -/
  | sync
  deriving DecidableEq, Repr

end Sys2Proof
end

