-- ==== Sys2Proof/WellFormed.lean ====
section
/-! DEFINITION. Which commands are well formed: the two value ranges of spec/30_encoding.md R54. Fields `C`, `D` and
`A` have no illegal values. -/

namespace Sys2Proof

/-- The value ranges of R54: `LOOKUP` has `I < 96`, `LOCATE` has `S < 14`; nothing else is restricted. -/
def Instr.wf : Instr → Bool
  | .nop => true
  | .index _ => true
  | .lookup i => decide (i.toNat < 96)
  | .locate s _ => decide (s.toNat < 14)
  | .renderAt _ _ => true
  | .putc _ => true
  | .resetBuf => true
  | .clear => true
  | .read _ => true
  | .sync => true

end Sys2Proof
end

