-- ==== Sys2Proof/Decode.lean ====
section
/-! DEFINITION. The decoder of spec/30_encoding.md R56, total on all 65536 words, and after it the encoder of R57. -/

namespace Sys2Proof

/-- The four ways a word names no command (R52, R53, R54, R109). -/
inductive RefuseCode where
  /-- `REF_OPCODE`: `OP` in 0xA..0xF (R52). -/
  | refOpcode
  /-- `REF_RSVD_BITS`: a must-be-zero bit is 1 (R53). -/
  | refRsvdBits
  /-- `REF_INDEX`: `LOOKUP` with `I >= 96` (R54). -/
  | refIndex
  /-- `REF_SEGMENT`: `LOCATE` with `S >= 14` (R54). -/
  | refSegment
  deriving DecidableEq, Repr

/-- What the decoder answers: a command, or a refusal by name (R56). -/
inductive Decoded where
  | cmd (i : Instr)
  | refuse (code : RefuseCode)
  deriving DecidableEq, Repr

/-- `OP = CMD[15:12]` (R48). -/
def opField (w : Word) : BitVec 4 := w.extractLsb' 12 4

/-- The must-be-zero bits of each `OP` in 0..9 (R49, R56). -/
def zmask : Nat → Word
  | 0 => 0x0FFF
  | 1 => 0x0F00
  | 2 => 0x0F80
  | 3 => 0x0FC0
  | 4 => 0x0C00
  | 5 => 0x0F00
  | 6 => 0x0FFF
  | 7 => 0x0FFF
  | 8 => 0x0FF0
  | _ => 0x0FFF

/-- The `case OP of` of R56, for a word whose `OP` is assigned and whose must-be-zero bits are 0. -/
def decodeOp (op : Nat) (w : Word) : Decoded :=
  match op with
  | 0 => .cmd .nop
  | 1 => .cmd (.index (w.extractLsb' 0 8))
  | 2 =>
    let i : BitVec 7 := w.extractLsb' 0 7
    if i.toNat ≥ 96 then .refuse .refIndex else .cmd (.lookup i)
  | 3 =>
    let s : BitVec 4 := w.extractLsb' 2 4
    if s.toNat ≥ 14 then .refuse .refSegment else .cmd (.locate s (w.extractLsb' 0 2))
  | 4 => .cmd (.renderAt (w.extractLsb' 0 8) (w.extractLsb' 8 2))
  | 5 => .cmd (.putc (w.extractLsb' 0 8))
  | 6 => .cmd .resetBuf
  | 7 => .cmd .clear
  | 8 => .cmd (.read (w.extractLsb' 0 4))
  | 9 => .cmd .sync
  | _ => .refuse .refOpcode

/-- The decoder of R56: the opcode first, then the must-be-zero bits, then the value ranges. -/
def decode (w : Word) : Decoded :=
  let op := (opField w).toNat
  if op ≥ 10 then .refuse .refOpcode
  else if w &&& zmask op ≠ 0 then .refuse .refRsvdBits
  else decodeOp op w

/-- The decoder's reading of a word of the opcode table: `nbits` bits of `w`, those above them 0. Every command is
exactly 16 bits long (R48), so a longer one is no command. -/
def decodeTableWord (nbits w : Nat) : Option Instr :=
  if nbits > 16 then none
  else
    match decode (BitVec.ofNat 16 (w % 2 ^ nbits)) with
    | .cmd i => some i
    | .refuse _ => none

/-- The encoder (R57): each command's word. -/
def encode : Instr → Word
  | .nop => 0x0000
  | .index c => 0x1000 ||| c.setWidth 16
  | .lookup i => 0x2000 ||| i.setWidth 16
  | .locate s d => 0x3000 ||| (s.setWidth 16 <<< 2) ||| d.setWidth 16
  | .renderAt c d => 0x4000 ||| (d.setWidth 16 <<< 8) ||| c.setWidth 16
  | .putc c => 0x5000 ||| c.setWidth 16
  | .resetBuf => 0x6000
  | .clear => 0x7000
  | .read a => 0x8000 ||| a.setWidth 16
  | .sync => 0x9000

/-! ## The opcode map (R51) -/

/-- One row of R51: the command is selected when `CMD & mask = pattern`. -/
structure OpRow where
  mnemonic : String
  pattern  : Word
  mask     : Word
  deriving DecidableEq, Repr

/-- The ten rows of R51, in its order. -/
def opcodeTable : List OpRow :=
  [⟨"NOP", 0x0000, 0xFFFF⟩, ⟨"INDEX", 0x1000, 0xFF00⟩, ⟨"LOOKUP", 0x2000, 0xFF80⟩, ⟨"LOCATE", 0x3000, 0xFFC0⟩,
   ⟨"RENDER_AT", 0x4000, 0xFC00⟩, ⟨"PUTC", 0x5000, 0xFF00⟩, ⟨"RESET_BUF", 0x6000, 0xFFFF⟩, ⟨"CLEAR", 0x7000, 0xFFFF⟩,
   ⟨"READ", 0x8000, 0xFFF0⟩, ⟨"SYNC", 0x9000, 0xFFFF⟩]

/-- A command's mnemonic (R51, R57). -/
def Instr.mnemonic : Instr → String
  | .nop => "NOP"
  | .index _ => "INDEX"
  | .lookup _ => "LOOKUP"
  | .locate _ _ => "LOCATE"
  | .renderAt _ _ => "RENDER_AT"
  | .putc _ => "PUTC"
  | .resetBuf => "RESET_BUF"
  | .clear => "CLEAR"
  | .read _ => "READ"
  | .sync => "SYNC"

end Sys2Proof
end

