-- ==== Sys2Proof/Machine/State.lean ====
section
/-! DEFINITION. The state of ENC14 (spec/10_state.md R15) as plain data, what a step can stop with, and the state after
reset (R28). Beside the tuple `(SHADOW, DIGIT_POS, INIT, MARK)` of R15 the record holds what makes one step a function of
the state alone: the configuration (R7), the host's side of the command port (R48, R130), the outputs the host has
received (R27, R132), and the counter of the free values. -/

namespace Sys2Proof.Machine

/-! ## The shadow RAM -/

/-- The shadow RAM (R16, R30): addresses 0..15, as a list of (address, byte) pairs in the canonical form `Memory.wf`. -/
abbrev Memory := List Host.Cell

/-- What an address that is not listed reads as. `RESET_BUF` and `CLEAR` leave nothing listed, and then every byte is
0x00 (R95). At reset the spec leaves the bytes unspecified (R28): that they read as 0 then is log entry 4. -/
def unlistedByte : Byte := 0x00

/-- The canonical form: addresses strictly rising and below 16, no entry that an unlisted address reads as. -/
abbrev Memory.wf (m : Memory) : Prop :=
  m.Pairwise (fun x y => x.1 < y.1) ∧ ∀ x ∈ m, x.1 < 16 ∧ x.2 ≠ unlistedByte

/-! ## Outcomes of a command (R12, R27, R108, R109) -/

/-- The output of a command that ends `Ok` (R12, R27). -/
inductive Output where
  /-- `None`. -/
  | none
  /-- `Value(v16)`. -/
  | value (v : Word)
  /-- `Frame(b[0..16])`: 17 bytes (R93). -/
  | frame (bytes : Vector Byte 17)
  deriving DecidableEq, Repr

/-- A `Fault(code)` or `Refuse(code)` outcome with its recorded value (R109): what `MARK` holds when it is not `None`
(R26, R112). -/
inductive Stop where
  /-- `Refuse(code)`: the word names no command. Recorded: the command word. -/
  | refuse (code : RefuseCode) (word : Word)
  /-- `Fault(FLT_UNINIT)`: `RENDER_AT`, `PUTC`, `READ` or `SYNC` with `INIT = 0`. Recorded: the command word. -/
  | fltUninit (word : Word)
  /-- `Fault(FLT_DIGIT_OVF)`: `PUTC` of an ordinary character with the display full. Recorded: the command word and
  `DIGIT_POS`. -/
  | fltDigitOvf (word : Word) (digitPos : BitVec 3)
  deriving DecidableEq, Repr

/-- The number of an outcome code (R109). -/
def Stop.number : Stop → Nat
  | .refuse .refOpcode _ => 1
  | .refuse .refRsvdBits _ => 2
  | .refuse .refIndex _ => 3
  | .refuse .refSegment _ => 4
  | .fltUninit _ => 5
  | .fltDigitOvf _ _ => 6

/-- What the host can do to ENC14 (R130): present one command word, or reset. -/
inductive HostInput where
  | command (w : Word)
  | reset
  deriving DecidableEq, Repr

/-! ## The state -/

/-- The state (R15), and beside it what R15 calls configuration and what belongs to the host. -/
structure State where
  /-- The configuration (R7), an argument of every step that no step changes (R23). -/
  config : Config
  /-- `SHADOW` (R16). -/
  shadow : Memory
  /-- `DIGIT_POS`, 3 bits (R19). -/
  digitPos : BitVec 3
  /-- `INIT` (R20). -/
  init : Bool
  /-- `MARK` (R26): `none` while the run goes on. -/
  mark : Option Stop
  /-- The outputs the host has received in this run, oldest first (R27, R132). No command reads them. -/
  outputs : List Output
  /-- What the host will present, in order (R48, R130). A step reads only the first. -/
  port : List HostInput
  /-- How many resets have drawn free values (log entry 5). No command reads it. -/
  freeCount : Nat
  deriving DecidableEq, Repr

/-! ## What a step can stop with -/

/-- The faults of a step. The outcomes `Fault(code)` and `Refuse(code)` of the spec are none of these: they set `MARK`
and are next states (R112; log entry 1). -/
inductive Fault where
  /-- Raised by `step` when `MARK` is set and the host presents a command: the run is over, and no command has a step
  (R113). Safe: nothing can be proved of a step the spec does not give. -/
  | runEnded
  deriving DecidableEq, Repr

/-- The refusals of a step. -/
inductive Refusal where
  /-- Raised by an arm of `exec` for a command with no meaning yet; no arm raises it. Safe. -/
  | notModelled (mnemonic : String)
  /-- Raised by `launch` on a configuration that breaks R40 or R67: it is refused at configuration time (R40), and no
  step of the machine raises it. Safe: no run of an ill-formed configuration begins there. -/
  | illFormedConfig
  deriving DecidableEq, Repr

/-- What a step, and the meaning of a command, answers. -/
abbrev Result := Host.Outcome State Fault Refusal

/-! ## Reset (R28) -/

/-- The state right after reset (R28, R123): `INIT = 0`, `MARK = None`, the configuration's own values; the host has
presented nothing and received nothing. `SHADOW` and `DIGIT_POS` are unspecified there, and this state holds 0 in both
(log entry 4). -/
def State.reset : State where
  config := Config.installed
  shadow := []
  digitPos := 0
  init := false
  mark := none
  outputs := []
  port := []
  freeCount := 0

end Sys2Proof.Machine
end

