-- ==== Sys2Proof/Machine/Ops.lean ====
section
/-! DEFINITION. The shared operations: reading and writing the shadow RAM, zeroing it, the sync frame, ending a command
with `Ok(out)` or with a fault or refusal, and what the host does (present a word, reset, launch). -/

namespace Sys2Proof.Machine

/-! ## The shadow RAM (R9, R30, R33) -/

/-- The byte listed at an address, or what an unlisted address reads as. -/
def readCell : Memory → Nat → Byte
  | [], _ => unlistedByte
  | (b, u) :: m, a => if b = a then u else readCell m a

/-- Puts a byte at an address and keeps the canonical form. -/
def writeCell : Memory → Nat → Byte → Memory
  | [], a, v => if v = unlistedByte then [] else [(a, v)]
  | (b, u) :: m, a, v =>
    if a < b then (if v = unlistedByte then (b, u) :: m else (a, v) :: (b, u) :: m)
    else if a = b then (if v = unlistedByte then m else (b, v) :: m)
    else (b, u) :: writeCell m a v

/-- `SHADOW[a]` (R9). -/
def readByte (m : Memory) (a : Addr) : Byte := readCell m a.toNat

/-- `SHADOW[a] <- v` (R9). -/
def writeByte (m : Memory) (a : Addr) (v : Byte) : Memory := writeCell m a.toNat v

/-- `SetBit(a, b)`: `SHADOW[a] <- SHADOW[a] | (1 << b)` (R9, R33). -/
def setBit (m : Memory) (l : Loc) : Memory :=
  writeByte m l.addr (readByte m l.addr ||| (1#8 <<< l.bit.toNat))

/-- The bit at a location. -/
def bitAt (m : Memory) (l : Loc) : Bool := (readByte m l.addr).getLsbD l.bit.toNat

/-- The sixteen shadow addresses in ascending order (R35). -/
def addrs : List Addr := [0, 1, 2, 3, 4, 5, 6, 7, 8, 9, 10, 11, 12, 13, 14, 15]

/-- Sixteen given bytes as a shadow RAM. -/
def memoryOf (f : Addr → Byte) : Memory := addrs.foldl (fun m a => writeByte m a (f a)) []

/-- The effect of `RESET_BUF` and `CLEAR` on the state (R95, R96): every shadow byte 0x00 (nothing listed), `DIGIT_POS`
0, `INIT` 1. -/
def State.zeroBuf (s : State) : State := { s with shadow := [], digitPos := 0, init := true }

/-- The sync frame of a shadow RAM (R93): `RAM_WRITE_OPCODE`, then `SHADOW[0]` to `SHADOW[15]`. -/
def frameOf (m : Memory) : Vector Byte 17 :=
  ⟨(ramWriteOpcode :: addrs.map (readByte m)).toArray, by simp [addrs]⟩

/-! ## How a command ends (R12, R108, R112) -/

/-- `Ok(out)`: the host receives `out` at the end of the step (R27). -/
def State.emit (s : State) (out : Output) : Result := .next { s with outputs := s.outputs ++ [out] }

/-- `Fault(code)` or `Refuse(code)` (R112): `MARK` is set to it, with its recorded value, and nothing else changes; no
output is given. There is no vector, no saved state and no return from it (R112, R113). -/
def State.raise (s : State) (r : Stop) : Result := .next { s with mark := some r }

/-! ## What the host does (R130) -/

/-- The host presents words before what it would present next (R48). -/
def State.present (s : State) (ws : List Word) : State := { s with port := ws.map .command ++ s.port }

/-- The bytes and the digit position the `n`-th reset leaves: any values (R28; log entry 5). -/
@[irreducible] def freeShadow (n : Nat) : Memory := memoryOf fun a => Config.freeByte (16 * n + a.toNat)

/-- A reset that the host issues (R123, R130): a new run. `INIT = 0`, `MARK = None`, `SHADOW` and `DIGIT_POS`
unspecified, the configuration as it was, no output received yet. -/
def State.hostReset (s : State) : State :=
  { s with
    shadow := freeShadow s.freeCount
    digitPos := Config.freeDigit s.freeCount
    init := false
    mark := none
    outputs := []
    freeCount := s.freeCount + 1 }

/-- Configuration time: a machine is launched with a configuration of the host's, and an ill-formed one is refused
(R40). -/
def launch (c : Config) : Result :=
  if c.wf then .next { State.reset with config := c } else .refused .illFormedConfig

end Sys2Proof.Machine
end

