-- ==== Sys2Proof/Machine/Buffer.lean ====
section
/-! DEFINITION. The family of spec/43_buffer.md: `NOP`, `RESET_BUF`, `CLEAR`, `READ` and `SYNC`. -/

namespace Sys2Proof.Machine

/-- `NOP` (R94): do nothing. -/
def execNop (s : State) : Result := s.emit .none

/-- `RESET_BUF` (R95): zero the shadow RAM and `DIGIT_POS`, set `INIT`, no frame. -/
def execResetBuf (s : State) : Result := s.zeroBuf.emit .none

/-- `CLEAR` (R96): as `RESET_BUF`, and emit the frame of the zeroed shadow RAM. -/
def execClear (s : State) : Result := s.zeroBuf.emit (.frame (frameOf s.zeroBuf.shadow))

/-- `READ A` (R97): one shadow byte. -/
def execRead (a : Addr) (s : State) : Result :=
  if s.init then s.emit (.value ((readByte s.shadow a).setWidth 16))
  else s.raise (.fltUninit (encode (.read a)))

/-- `SYNC` (R98): emit the frame of the shadow RAM. -/
def execSync (s : State) : Result :=
  if s.init then s.emit (.frame (frameOf s.shadow))
  else s.raise (.fltUninit (encode .sync))

end Sys2Proof.Machine
end

