-- ==== Sys2Proof/Machine/Operands.lean ====
section
/-! DEFINITION. What the commands compute from their operands: the index function and the classes of characters
(spec/40_lookup.md), the table read, and the COM/ROW mapper (spec/41_locate.md). -/

namespace Sys2Proof.Machine

/-! ## Characters (R63 to R65, R70, R91) -/

/-- `idx(c)` (R63). -/
def idx (c : Byte) : Fin 96 :=
  if c = 0x20#8 then idxSpace
  else if h : 0x21#8 ≤ c ∧ c ≤ 0x7E#8 then ⟨(c.toNat - 0x21) + 1, by simp [BitVec.le_def] at h; omega⟩
  else idxUnknown

/-- The index classes (R64). -/
inductive CharClass where
  | space | decimal | colon | glyph | unknown
  deriving DecidableEq, Repr

/-- The class of a byte, decided on its index (R64, R65). -/
def charClass (c : Byte) : CharClass :=
  if idx c = idxDecimal then .decimal
  else if idx c = idxColon then .colon
  else if idx c = idxSpace then .space
  else if idx c = idxUnknown then .unknown
  else .glyph

/-- A modifier is a byte whose index is 14 or 26; every other byte is an ordinary character (R91). -/
def isModifier (c : Byte) : Bool := idx c == idxDecimal || idx c == idxColon

/-- `enc(c) = SEG_TABLE[idx(c)]` (R70). -/
def enc (cfg : Config) (c : Byte) : SegMask := cfg.segTable[idx c]

/-! ## The COM/ROW mapper (R73 to R76) -/

/-- Step 1: the fold of a segment number into 0..6 (R73), then the overrides of H and I (R74). -/
def comOf (s : Nat) : Nat :=
  let com := if s > 6 then s - 7 else s
  if s = 7 then 1 else if s = 8 then 0 else com

/-- Step 2: the row of a segment number and a digit (R75). -/
def rowOf (s d : Nat) : Nat :=
  let row := d % 4
  if s > 6 then row + 4 else row

/-- Step 3: the address and the bit (R76); the branch for rows 8 to 15 is kept, and is never taken here. -/
def locate (s : Fin 14) (d : BitVec 2) : Loc :=
  let addr := comOf s.val * 2
  let row := rowOf s.val d.toNat
  if row > 7 then ⟨BitVec.ofNat 4 (addr + 1), BitVec.ofNat 3 (row - 8)⟩
  else ⟨BitVec.ofNat 4 addr, BitVec.ofNat 3 row⟩

/-- `LOCATE`'s packing of a location (R80): the address in bits 6..3, the bit in bits 2..0. -/
def locValue (l : Loc) : Word := (l.addr ++ l.bit).setWidth 16

/-- The segment numbers 0..13 in order (R10, R81). -/
def segments : List (Fin 14) := [0, 1, 2, 3, 4, 5, 6, 7, 8, 9, 10, 11, 12, 13]

end Sys2Proof.Machine
end

