-- ==== Sys2Proof/Machine/Lookup.lean ====
section
/-! DEFINITION. The family of spec/40_lookup.md: `INDEX` and `LOOKUP`. Neither reads or writes the state. -/

namespace Sys2Proof.Machine

/-- `INDEX C` (R71): `out <- Value(zext_16(idx(C)))`. -/
def execIndex (c : Byte) (s : State) : Result := s.emit (.value (BitVec.ofNat 16 (idx c).val))

/-- `LOOKUP I` (R72): `out <- Value(zext_16(SEG_TABLE[I]))`, and `Refuse(REF_INDEX)` when `I >= 96` (R54). -/
def execLookup (i : BitVec 7) (s : State) : Result :=
  if h : i.toNat < 96 then s.emit (.value (s.config.segTable[i.toNat].setWidth 16))
  else s.raise (.refuse .refIndex (encode (.lookup i)))

end Sys2Proof.Machine
end

