-- ==== Sys2Proof/Machine/Mapper.lean ====
section
/-! DEFINITION. The family of spec/41_locate.md: `LOCATE`. It neither reads nor writes the state. -/

namespace Sys2Proof.Machine

/-- `LOCATE S, D` (R80): the location of the segment, packed, and `Refuse(REF_SEGMENT)` when `S >= 14` (R54). -/
def execLocate (seg : BitVec 4) (d : BitVec 2) (s : State) : Result :=
  if h : seg.toNat < 14 then s.emit (.value (locValue (locate ⟨seg.toNat, h⟩ d)))
  else s.raise (.refuse .refSegment (encode (.locate seg d)))

end Sys2Proof.Machine
end

