-- ==== Sys2Proof/Machine/Flags.lean ====
section
/-! DEFINITION. The two flags of ENC14 (spec/10_state.md R21, R22). They are shadow bits, kept nowhere else: a render of
`.` or `:` sets one (R82, R83), and only `RESET_BUF` and `CLEAR` clear them (R95, R96). ENC14 has no other flag and no
condition code (R22). -/

namespace Sys2Proof.Machine

/-- `DEC = SHADOW[DEC_ADDR][DEC_BIT]` (R21). -/
def State.decFlag (s : State) : Bool := bitAt s.shadow s.config.decLoc

/-- `COL = SHADOW[COL_ADDR][COL_BIT]` (R22). -/
def State.colFlag (s : State) : Bool := bitAt s.shadow s.config.colLoc

/-- Sets the decimal-on flag (R82). -/
def setDecFlag (cfg : Config) (m : Memory) : Memory := setBit m cfg.decLoc

/-- Sets the colon-on flag (R83). -/
def setColFlag (cfg : Config) (m : Memory) : Memory := setBit m cfg.colLoc

end Sys2Proof.Machine
end

