-- ==== Sys2Proof/Machine/Render.lean ====
section
/-! DEFINITION. The family of spec/42_render.md: the render datapath (R81), `RENDER_AT` and `PUTC`. -/

namespace Sys2Proof.Machine

/-- The loop of R81: for each segment set in the mask, set its bit at the digit (R84). -/
def renderMask (mask : SegMask) (d : BitVec 2) (m : Memory) : Memory :=
  segments.foldl (fun m s => if mask.getLsbD s.val then setBit m (locate s d) else m) m

/-- `renderInto(c, d)` (R81): a modifier sets its flag bit instead of reading the table (R82, R83, R86), any other
character ORs its segments in (R84). -/
def renderInto (cfg : Config) (c : Byte) (d : BitVec 2) (m : Memory) : Memory :=
  if idx c = idxDecimal then setDecFlag cfg m
  else if idx c = idxColon then setColFlag cfg m
  else renderMask cfg.segTable[idx c] d m

/-- The state with the character rendered into its shadow RAM. -/
def State.render (s : State) (c : Byte) (d : BitVec 2) : State :=
  { s with shadow := renderInto s.config c d s.shadow }

/-- `RENDER_AT C, D` (R87). -/
def execRenderAt (c : Byte) (d : BitVec 2) (s : State) : Result :=
  if s.init then (s.render c d).emit .none
  else s.raise (.fltUninit (encode (.renderAt c d)))

/-- `PUTC C` (R88): a modifier sets its flag and does not advance; an ordinary character is rendered at `DIGIT_POS` and
advances it; with the display full it faults (R89). -/
def execPutc (c : Byte) (s : State) : Result :=
  if s.init then
    if isModifier c then (s.render c 0).emit .none
    else if s.digitPos.toNat ≥ 4 then s.raise (.fltDigitOvf (encode (.putc c)) s.digitPos)
    else { s.render c (s.digitPos.setWidth 2) with digitPos := s.digitPos + 1 }.emit .none
  else s.raise (.fltUninit (encode (.putc c)))

end Sys2Proof.Machine
end

