-- ==== Sys2Proof/Machine/Dispatch.lean ====
section
/-! DEFINITION. The meaning of every command, one arm for each constructor of `Instr`. -/

namespace Sys2Proof.Machine

def exec (i : Instr) (s : State) : Host.Outcome State Fault Refusal :=
  match i with
  | .nop => Sys2Proof.Machine.execNop s
  | .index c => Sys2Proof.Machine.execIndex c s
  | .lookup n => Sys2Proof.Machine.execLookup n s
  | .locate g d => Sys2Proof.Machine.execLocate g d s
  | .renderAt c d => Sys2Proof.Machine.execRenderAt c d s
  | .putc c => Sys2Proof.Machine.execPutc c s
  | .resetBuf => Sys2Proof.Machine.execResetBuf s
  | .clear => Sys2Proof.Machine.execClear s
  | .read a => Sys2Proof.Machine.execRead a s
  | .sync => Sys2Proof.Machine.execSync s

end Sys2Proof.Machine
end

