-- ==== Sys2Proof/Machine/Fetch.lean ====
section
/-! DEFINITION. What a step does with the command port: the word the host presents is decoded (spec/30_encoding.md R56)
and run, in the host's order, one command a step (spec/20_memory.md R43). -/

namespace Sys2Proof.Machine

/-- One command word, taken from the port. Once `MARK` is set no command has a step (R113); a word that names no command
is refused with its code (R52 to R54, R112); any other is run. -/
def runWord (w : Word) (s : State) : Result :=
  match s.mark with
  | some _ => .fault .runEnded
  | none =>
    match decode w with
    | .cmd i => exec i s
    | .refuse code => s.raise (.refuse code w)

/-- One step: the host's next input is taken from the port. With nothing presented ENC14 waits (R124; log entry 6). -/
def takeInput (s : State) : Result :=
  match s.port with
  | [] => .next s
  | .command w :: rest => runWord w { s with port := rest }
  | .reset :: rest => .next { s with port := rest }.hostReset

end Sys2Proof.Machine
end

