-- ==== Sys2Proof/Machine/Step.lean ====
section
/-! DEFINITION. The step of the machine, and placing a word where the next step takes it. -/

namespace Sys2Proof.Machine

/-- One step of ENC14 (R43, R48). -/
def step (s : State) : Host.Outcome State Fault Refusal := takeInput s

/-- The host presents the word `w` (its low `nbits` bits, at most 16) before anything else: the next step takes it (log
entry 7). -/
def State.withFetchWord (s : State) (nbits w : Nat) : State := s.present [BitVec.ofNat 16 (w % 2 ^ nbits)]

end Sys2Proof.Machine
end

