-- ==== Sys2Proof/Machine/Write.lean ====
section
/-! DEFINITION. The pseudo-instruction `WRITE` (spec/43_buffer.md R101 to R103), as the host expands it. It has no command
word of its own (R59). -/

namespace Sys2Proof.Machine

/-- `k = min(n, 4)`: what `WRITE` consumes of its bytes, modifiers included, and the result the host returns (R102,
R103). -/
def writeResult (bs : List Byte) : Nat := min bs.length 4

/-- The bytes that `WRITE` renders: the first `min(n, 4)` (R102). -/
def writeBytes (bs : List Byte) : List Byte := bs.take (writeResult bs)

/-- The expansion of R101: `RESET_BUF`, one `PUTC` for each byte kept, `SYNC`. -/
def writeExpand (bs : List Byte) : List Instr := .resetBuf :: ((writeBytes bs).map .putc ++ [.sync])

/-- The host presents `WRITE bs` (R130): the words of its expansion, before what it would present next. -/
def State.presentWrite (s : State) (bs : List Byte) : State := s.present ((writeExpand bs).map encode)

end Sys2Proof.Machine
end

