-- ==== Sys2Proof/Machine/Asm.lean ====
section
/-! DEFINITION. The assembler of spec/30_encoding.md R57 to R59, a line of characters at a time: an upper-case mnemonic,
operands separated by commas, `;` starting a comment. It has no effect on what the machine does (92_eei_decisions.md
D17). What the spec leaves open about its spelling is log entry 8. -/

namespace Sys2Proof.Machine

/-! ## Lexing -/

/-- The pieces of a line. -/
inductive Tok where
  | word (cs : List Char)
  | chr (b : Byte)
  | str (bs : List Byte)
  | comma
  | lbrack
  | rbrack
  deriving DecidableEq, Repr

/-- A printable ASCII character (R58). -/
def isPrintable (c : Char) : Bool := decide (0x20 ≤ c.toNat) && decide (c.toNat ≤ 0x7E)

/-- A character of a mnemonic, a number or a segment letter. -/
def isWordChar (c : Char) : Bool := c.isAlphanum || c == '_'

/-- The byte value of a character (R50, R58). -/
def charByte (c : Char) : Byte := BitVec.ofNat 8 c.toNat

/-- The bytes before the next double quote, every one printable (R58, R59), and the characters after it; `none` where no
quote closes the string. -/
def readString (cs : List Char) : Option (List Byte × List Char) :=
  let body := cs.takeWhile (· ≠ '"')
  match cs.dropWhile (· ≠ '"') with
  | [] => none
  | _ :: rest => if body.all isPrintable then some (body.map charByte, rest) else none

/-- The pieces of one character: what separates operands, and what encloses a list (R59). -/
def separator (c : Char) : Option Tok := [(',', Tok.comma), ('[', .lbrack), (']', .rbrack)].lookup c

/-- Cuts a line into its pieces; `none` where a character has no place. The first argument bounds the pieces. -/
def lex : Nat → List Char → Option (List Tok)
  | _, [] => some []
  | 0, _ :: _ => none
  | n + 1, c :: cs =>
    if c = ';' then some []
    else if c = ' ' || c = '\t' then lex n cs
    else if let some t := separator c then (lex n cs).map (t :: ·)
    else if c = '\'' then
      match cs with
      | x :: q :: rest => if q = '\'' && isPrintable x then (lex n rest).map (.chr (charByte x) :: ·) else none
      | _ => none
    else if c = '"' then
      match readString cs with
      | some (bs, rest) => (lex n rest).map (.str bs :: ·)
      | none => none
    else if isWordChar c then (lex n (cs.dropWhile isWordChar)).map (.word (c :: cs.takeWhile isWordChar) :: ·)
    else none

/-! ## Operands (R58) -/

/-- The sixteen digits, each at its own value (R58). -/
def numerals : List Char := "0123456789ABCDEF".toList

/-- The value of a digit: its place among the numerals, a letter in either case (log entry 8). -/
def digitVal (c : Char) : Option Nat := numerals.idxOf? c.toUpper

/-- The digits of a number in a base, most significant first, after `acc`. -/
def readDigits (base : Nat) : Nat → List Char → Option Nat
  | acc, [] => some acc
  | acc, c :: cs =>
    match digitVal c with
    | some v => if v < base then readDigits base (acc * base + v) cs else none
    | none => none

/-- A number: decimal, or hexadecimal with a `0x` prefix (R58). -/
def readNumber : List Char → Option Nat
  | [] => none
  | [c] => readDigits 10 0 [c]
  | c :: d :: cs =>
    if c = '0' && d = 'x' then (if cs.isEmpty then none else readDigits 16 0 cs) else readDigits 10 0 (c :: d :: cs)

/-- A number below a bound: an operand outside its range is rejected (R58). -/
def asNumber (bound : Nat) : Tok → Option Nat
  | .word cs => (readNumber cs).filter (· < bound)
  | _ => none

/-- `<char>`: a number 0..255, or a printable ASCII character in single quotes (R58). -/
def asChar : Tok → Option Byte
  | .chr b => some b
  | t => (asNumber 256 t).map (BitVec.ofNat 8)

/-- `<seg>`: a letter A..N or a number 0..13 (R58). -/
def asSegment : Tok → Option (BitVec 4)
  | .word [c] =>
    if 'A' ≤ c && c ≤ 'N' then some (BitVec.ofNat 4 (c.toNat - 'A'.toNat))
    else (asNumber 14 (.word [c])).map (BitVec.ofNat 4)
  | t => (asNumber 14 t).map (BitVec.ofNat 4)

/-- `<digit>`: 0..3 (R58). -/
def asDigit (t : Tok) : Option (BitVec 2) := (asNumber 4 t).map (BitVec.ofNat 2)

/-- The bytes of a bracketed list, after its opening bracket (R59). -/
def asList : List Tok → Option (List Byte)
  | [.rbrack] => some []
  | [t, .rbrack] => (asChar t).map ([·])
  | t :: .comma :: rest =>
    match asChar t, asList rest with
    | some b, some (b' :: bs) => some (b :: b' :: bs)
    | _, _ => none
  | _ => none

/-- `<bytes>`: a double-quoted string or a bracketed list of `<char>` (R59). -/
def asBytes : List Tok → Option (List Byte)
  | [.str bs] => some bs
  | .lbrack :: rest => asList rest
  | _ => none

/-! ## Lines (R57, R59) -/

/-- A command without operands. -/
def asmF0 (i : Instr) : List Tok → Option (List Instr)
  | [] => some [i]
  | _ => none

/-- A command with one operand. -/
def asmOne (f : Tok → Option Instr) : List Tok → Option (List Instr)
  | [t] => (f t).map ([·])
  | _ => none

/-- A command with two operands. -/
def asmTwo (f : Tok → Tok → Option Instr) : List Tok → Option (List Instr)
  | [t, .comma, u] => (f t u).map ([·])
  | _ => none

/-- The commands of a line: none for a line that holds none, the expansion for `WRITE`, one for any other. -/
def parseLine : List Tok → Option (List Instr)
  | [] => some []
  | .word m :: args =>
    if m = "NOP".toList then asmF0 .nop args
    else if m = "INDEX".toList then asmOne (fun t => (asChar t).map .index) args
    else if m = "LOOKUP".toList then asmOne (fun t => (asNumber 96 t).map (.lookup ∘ BitVec.ofNat 7)) args
    else if m = "LOCATE".toList then
      asmTwo (fun t u => (asSegment t).bind fun s => (asDigit u).map (.locate s)) args
    else if m = "RENDER_AT".toList then
      asmTwo (fun t u => (asChar t).bind fun c => (asDigit u).map (.renderAt c)) args
    else if m = "PUTC".toList then asmOne (fun t => (asChar t).map .putc) args
    else if m = "RESET_BUF".toList then asmF0 .resetBuf args
    else if m = "CLEAR".toList then asmF0 .clear args
    else if m = "READ".toList then asmOne (fun t => (asNumber 16 t).map (.read ∘ BitVec.ofNat 4)) args
    else if m = "SYNC".toList then asmF0 .sync args
    else if m = "WRITE".toList then (asBytes args).map writeExpand
    else none
  | _ => none

/-- The words a line assembles to (R57, R59), or `none` where the assembler rejects it (R58). -/
def assembleLine (cs : List Char) : Option (List Word) :=
  ((lex cs.length cs).bind parseLine).map (·.map encode)

/-- The words of a program, one line after another. -/
def assemble (lines : List (List Char)) : Option (List Word) := (lines.mapM assembleLine).map List.flatten

end Sys2Proof.Machine
end

