-- ==== Sys2Proof/Safety.lean ====
section
/-! DEFINITION. The terms that claims about ENC14 use: the launch premises of spec/70_reset_and_hazards.md R133, the
end of a run and what is observed of it (R132), which bits a render lights (spec/42_render.md R82 to R84), and the
invariant of spec/10_state.md R29. -/

namespace Sys2Proof.Machine

/-! ## Premises and ends of runs -/

/-- `NoFault` (R133). -/
abbrev State.NoFault (s : State) : Prop := s.mark = none

/-- `Initialised` (R133). -/
abbrev State.Initialised (s : State) : Prop := s.init = true

/-- `Cleared` (R133): `INIT = 1`, every shadow byte 0, `DIGIT_POS = 0`. -/
abbrev State.Cleared (s : State) : Prop := s.init = true ∧ (∀ a, readByte s.shadow a = 0) ∧ s.digitPos = 0

/-- A state that a reset may leave (R28, R123): any shadow bytes, any digit position. -/
abbrev State.AfterReset (s : State) : Prop := s.init = false ∧ s.mark = none ∧ s.outputs = []

/-- The host presents no further command in this run (R132): nothing at all, or a reset, with which the next run begins
(R123, R130; log entry 16). -/
def State.noFurtherCommand (s : State) : Bool :=
  match s.port with
  | [] => true
  | .reset :: _ => true
  | .command _ :: _ => false

/-- The successful end of a run (R132): the host presents no further command, and `MARK = None`. -/
abbrev State.EndsWell (s : State) : Prop := s.noFurtherCommand = true ∧ s.mark = none

/-- The unsuccessful end of a run (R132): a `Fault` or a `Refuse` has set `MARK` (R113). -/
abbrev State.EndsUnsuccessfully (s : State) : Prop := s.mark ≠ none

/-- What a run shows of its outputs (R132): the `Value`s and `Frame`s, in order. -/
def State.shown (s : State) : List Output := s.outputs.filter (· ≠ .none)

/-- A run's observation (R132). -/
structure Observation where
  /-- Its `Value`s and `Frame`s, in order. -/
  outputs : List Output
  /-- Its final `SHADOW`; with `INIT = 0` it is what R28 leaves unspecified. -/
  shadow : Memory
  /-- Its final `DIGIT_POS`; with `INIT = 0` it is what R28 leaves unspecified. -/
  digitPos : BitVec 3
  /-- Its final `INIT`. -/
  init : Bool
  deriving DecidableEq, Repr

/-- The observation of a run that ends in this state (R132). -/
def State.observation (s : State) : Observation where
  outputs := s.shown
  shadow := s.shadow
  digitPos := s.digitPos
  init := s.init

/-- Whether an output is a frame (R27). -/
def Output.isFrame : Output → Bool
  | .frame _ => true
  | _ => false

/-! ## What a render lights (R82 to R84) -/

/-- The image `IMG(m, d)` of a mask at a digit (R84): the locations of its segments. -/
abbrev inImage (mask : SegMask) (d : BitVec 2) (l : Loc) : Prop :=
  ∃ g : Fin 14, mask.getLsbD g.val = true ∧ locate g d = l

/-- The locations that a render of `c` into digit `d` sets: the decimal bit for `.` (R82), the colon bit for `:` (R83),
the character's image otherwise (R84). -/
abbrev lights (cfg : Config) (c : Byte) (d : BitVec 2) (l : Loc) : Prop :=
  if c = 0x2E#8 then l = cfg.decLoc
  else if c = 0x3A#8 then l = cfg.colLoc
  else inImage (enc cfg c) d l

/-- The bytes that no lit location lies in read as before. -/
abbrev otherBytesKept (cfg : Config) (c : Byte) (d : BitVec 2) (m m' : Memory) : Prop :=
  ∀ a : Addr, (∀ l, lights cfg c d l → l.addr ≠ a) → readByte m' a = readByte m a

/-! ## Which cause a word is stopped for (R111) -/

/-- The must-be-zero bits of the word's format, by the map of R51: some are 1. -/
abbrev reservedBitSet (w : Word) : Prop :=
  ∃ r ∈ opcodeTable, r.pattern.extractLsb' 12 4 = w.extractLsb' 12 4 ∧ w &&& r.mask ≠ r.pattern

/-- The first cause that applies to a word, in the order of R111, with its recorded value (R109). -/
def firstCause (s : State) (w : Word) : Option Stop :=
  let op := (w.extractLsb' 12 4).toNat
  let c : Byte := w.extractLsb' 0 8
  if op ≥ 10 then some (.refuse .refOpcode w)
  else if reservedBitSet w then some (.refuse .refRsvdBits w)
  else if op = 2 ∧ (w.extractLsb' 0 7).toNat ≥ 96 then some (.refuse .refIndex w)
  else if op = 3 ∧ (w.extractLsb' 2 4).toNat ≥ 14 then some (.refuse .refSegment w)
  else if (op = 4 ∨ op = 5 ∨ op = 8 ∨ op = 9) ∧ s.init = false then some (.fltUninit w)
  else if op = 5 ∧ c ≠ 0x2E ∧ c ≠ 0x3A ∧ s.digitPos.toNat ≥ 4 then some (.fltDigitOvf w s.digitPos)
  else none

/-- The command word that a stop records (R109). -/
def Stop.word : Stop → Word
  | .refuse _ w => w
  | .fltUninit w => w
  | .fltDigitOvf w _ => w

/-- The codes that a word of each `OP` can be stopped with (R110). -/
def possibleCodes : Nat → List Nat
  | 0 => [2]
  | 1 => [2]
  | 2 => [2, 3]
  | 3 => [2, 4]
  | 4 => [2, 5]
  | 5 => [2, 5, 6]
  | 6 => [2]
  | 7 => [2]
  | 8 => [2, 5]
  | 9 => [2, 5]
  | _ => [1]

/-! ## What a run cannot tell (R20, R28) -/

/-- Two states that differ at most in what is unspecified while `INIT = 0`: the shadow bytes and the digit position. -/
structure SameButUnset (s t : State) : Prop where
  config : s.config = t.config
  init : s.init = t.init
  mark : s.mark = t.mark
  outputs : s.outputs = t.outputs
  port : s.port = t.port
  freeCount : s.freeCount = t.freeCount
  shadow : s.init = true → s.shadow = t.shadow
  digitPos : s.init = true → s.digitPos = t.digitPos

/-- Two configurations that differ at most in the table entries 14 and 26, which no render reads (R68, R86). -/
abbrev sameButModifierEntries (c c' : Config) : Prop :=
  c.decLoc = c'.decLoc ∧ c.colLoc = c'.colLoc ∧ ∀ i : Fin 96, i ≠ 14 → i ≠ 26 → c.segTable[i] = c'.segTable[i]

/-! ## The invariant (R19, R29) -/

/-- What every step keeps: the shadow RAM is in canonical form; and once `INIT = 1`, `DIGIT_POS` is at most 4 (R19, R29)
and every shadow bit outside the segment region, other than the two flag bits, is 0 (R29, R41). -/
structure State.Inv (s : State) : Prop where
  shadow_wf : s.shadow.wf
  digit_le : s.init = true → s.digitPos.toNat ≤ 4
  unused_zero : s.init = true → ∀ l : Loc, l.inRegion = false → l ≠ s.config.decLoc → l ≠ s.config.colLoc →
    bitAt s.shadow l = false

end Sys2Proof.Machine
end

