-- ==== Sys2Proof/Certificates/Slice0/Obligations.lean ====
section
/-! DEFINITION. The statements for the provers, in the order of the rules of spec/. A statement about the shadow RAM
takes its canonical form, `Memory.wf`, as a premise where it speaks of single bits; that every step keeps the form is
the statement `EveryStepKeepsTheInvariant`. -/

open Sys2Proof Sys2Proof.Machine

/-! ## Encoding (spec/30_encoding.md) -/

/-- The decoder reads back every well-formed command, with every operand at every value (R49, R56, R57). -/
def Obligations.DecodeOfEncode : Prop := ∀ i : Instr, i.wf = true → decode (encode i) = .cmd i

/-- Each word has at most one reading: a word that decodes is the encoding of the well-formed command it decodes to, so
the word that `MARK` records is the word presented (R56, R57, R109). -/
def Obligations.EncodeOfDecode : Prop := ∀ (w : Word) (i : Instr), decode w = .cmd i → i.wf = true ∧ encode i = w

/-- R51: a command is selected exactly when `CMD & mask = match` of its row, but for the value ranges of R54. -/
def Obligations.OpcodeMapSelectsTheCommand : Prop :=
  (∀ (w : Word) (i : Instr), decode w = .cmd i →
    ∃ r ∈ opcodeTable, r.mnemonic = i.mnemonic ∧ w &&& r.mask = r.pattern) ∧
  (∀ r ∈ opcodeTable, ∀ w : Word, w &&& r.mask = r.pattern →
    (∃ i, decode w = .cmd i ∧ i.mnemonic = r.mnemonic) ∨
    (decode w = .refuse .refIndex ∧ r.mnemonic = "LOOKUP" ∧ 96 ≤ (w.extractLsb' 0 7).toNat) ∨
    (decode w = .refuse .refSegment ∧ r.mnemonic = "LOCATE" ∧ 14 ≤ (w.extractLsb' 2 4).toNat))

/-- R50: every operand is the number made of its field's bits in place. -/
def Obligations.FieldsAreReadInPlace : Prop :=
  ∀ w : Word,
    (∀ c, decode w = .cmd (.index c) → c.toNat = w.toNat % 256) ∧
    (∀ n, decode w = .cmd (.lookup n) → n.toNat = w.toNat % 128) ∧
    (∀ g d, decode w = .cmd (.locate g d) → g.toNat = w.toNat / 4 % 16 ∧ d.toNat = w.toNat % 4) ∧
    (∀ c d, decode w = .cmd (.renderAt c d) → c.toNat = w.toNat % 256 ∧ d.toNat = w.toNat / 256 % 4) ∧
    (∀ c, decode w = .cmd (.putc c) → c.toNat = w.toNat % 256) ∧
    (∀ a, decode w = .cmd (.read a) → a.toNat = w.toNat % 16)

/-- R52: a word with `OP` in 0xA..0xF is refused with `REF_OPCODE`, and only `MARK` changes (the port moves on). -/
def Obligations.UnassignedOpcodeIsRefused : Prop :=
  ∀ (s : State) (w : Word) (rest : List HostInput), s.mark = none → s.port = .command w :: rest →
    0xA ≤ w.toNat / 4096 →
    step s = .next { s with port := rest, mark := some (.refuse .refOpcode w) }

/-- R53: a word whose `OP` is assigned but with a 1 in a must-be-zero bit of its format is refused with
`REF_RSVD_BITS`. The must-be-zero bits are read off the match and mask of R51. -/
def Obligations.ReservedBitsAreRefused : Prop :=
  ∀ (s : State) (w : Word) (rest : List HostInput), s.mark = none → s.port = .command w :: rest →
    ∀ r ∈ opcodeTable, r.pattern.toNat / 4096 = w.toNat / 4096 → w &&& r.mask ≠ r.pattern →
    step s = .next { s with port := rest, mark := some (.refuse .refRsvdBits w) }

/-- R54: the two value ranges, and that fields `C`, `D` and `A` have no illegal values. -/
def Obligations.ValueRangesAreRefused : Prop :=
  (∀ (s : State) (n : BitVec 7) (rest : List HostInput), s.mark = none →
    s.port = .command (0x2000 ||| n.setWidth 16) :: rest → 96 ≤ n.toNat →
    step s = .next { s with port := rest, mark := some (.refuse .refIndex (0x2000 ||| n.setWidth 16)) }) ∧
  (∀ (s : State) (g : BitVec 4) (d : BitVec 2) (rest : List HostInput), s.mark = none →
    s.port = .command (0x3000 ||| (g.setWidth 16 <<< 2) ||| d.setWidth 16) :: rest → 14 ≤ g.toNat →
    step s = .next { s with
      port := rest, mark := some (.refuse .refSegment (0x3000 ||| (g.setWidth 16 <<< 2) ||| d.setWidth 16)) }) ∧
  (∀ c : Byte, decode (0x1000 ||| c.setWidth 16) = .cmd (.index c)) ∧
  (∀ (g : BitVec 4) (d : BitVec 2), g.toNat < 14 →
    decode (0x3000 ||| (g.setWidth 16 <<< 2) ||| d.setWidth 16) = .cmd (.locate g d)) ∧
  (∀ (c : Byte) (d : BitVec 2), decode (0x4000 ||| (d.setWidth 16 <<< 8) ||| c.setWidth 16) = .cmd (.renderAt c d)) ∧
  (∀ c : Byte, decode (0x5000 ||| c.setWidth 16) = .cmd (.putc c)) ∧
  (∀ a : Addr, decode (0x8000 ||| a.setWidth 16) = .cmd (.read a))

/-- R55: how many words each command has, 1708 in all. -/
def Obligations.LegalWordsCounted : Prop :=
  let legal := (List.range 65536).filterMap fun n => decodeTableWord 16 n
  legal.length = 1708 ∧
    [("NOP", 1), ("INDEX", 256), ("LOOKUP", 96), ("LOCATE", 56), ("RENDER_AT", 1024), ("PUTC", 256), ("RESET_BUF", 1),
      ("CLEAR", 1), ("READ", 16), ("SYNC", 1)].all
      (fun row => (legal.filter fun i => i.mnemonic == row.1).length == row.2)

/-- R60: the worked encodings: what each word decodes to, and what each line assembles to. -/
def Obligations.WorkedEncodings : Prop :=
  decode 0x0000 = .cmd .nop ∧ decode 0x1041 = .cmd (.index 0x41) ∧ decode 0x10FF = .cmd (.index 0xFF) ∧
  decode 0x205F = .cmd (.lookup 95) ∧ decode 0x2060 = .refuse .refIndex ∧
  decode 0x301C = .cmd (.locate 7 0) ∧ decode 0x3037 = .cmd (.locate 13 3) ∧ decode 0x3038 = .refuse .refSegment ∧
  decode 0x427F = .cmd (.renderAt 0x7F 2) ∧ decode 0x502E = .cmd (.putc 0x2E) ∧ decode 0x503A = .cmd (.putc 0x3A) ∧
  decode 0x6000 = .cmd .resetBuf ∧ decode 0x7000 = .cmd .clear ∧ decode 0x8003 = .cmd (.read 3) ∧
  decode 0x9000 = .cmd .sync ∧ decode 0x0001 = .refuse .refRsvdBits ∧ decode 0xA000 = .refuse .refOpcode ∧
  assemble ["NOP".toList, "INDEX 'A'".toList, "INDEX 0xFF".toList, "LOOKUP 95".toList, "LOCATE H, 0".toList,
      "LOCATE N, 3".toList, "RENDER_AT 0x7F, 2".toList, "PUTC '.'".toList, "PUTC ':'".toList, "RESET_BUF".toList,
      "CLEAR".toList, "READ 3".toList, "SYNC".toList] =
    some [0x0000, 0x1041, 0x10FF, 0x205F, 0x301C, 0x3037, 0x427F, 0x502E, 0x503A, 0x6000, 0x7000, 0x8003, 0x9000] ∧
  assembleLine "LOOKUP 96".toList = none ∧ assembleLine "LOCATE 14, 0".toList = none

/-- R58: the assembler never encodes a refused word. -/
def Obligations.AssemblerNeverEncodesARefusedWord : Prop :=
  ∀ (line : List Char) (ws : List Word), assembleLine line = some ws → ∀ w ∈ ws, ∃ i, decode w = .cmd i

/-! ## The step (R43, R48, R111 to R113, R124) -/

/-- A word that the host presents and that decodes is run by its meaning, at the state whose port has moved on (R48). -/
def Obligations.StepRunsTheDecodedCommand : Prop :=
  ∀ (s : State) (w : Word) (rest : List HostInput) (i : Instr), s.mark = none → s.port = .command w :: rest →
    decode w = .cmd i → step s = exec i { s with port := rest }

/-- With nothing presented ENC14 waits, and a step leaves the state as it is (log entry 6, the model's reading of
R124). -/
def Obligations.AnEmptyPortWaits : Prop := ∀ s : State, s.port = [] → step s = .next s

/-- A step reads only the head of the port: what the host will present later cannot change it (R43, R48). -/
def Obligations.StepReadsOnlyTheHeadOfThePort : Prop :=
  ∀ (s t : State) (inp : HostInput) (rest : List HostInput), s.port = inp :: rest → step s = .next t →
    t.port = rest ∧ ∀ rest', step { s with port := inp :: rest' } = .next { t with port := rest' }

/-- R111: of the causes that apply to a word, the first in order is recorded; with none, no mark is set. -/
def Obligations.FirstCauseWins : Prop :=
  ∀ (s : State) (w : Word) (rest : List HostInput), s.mark = none → s.port = .command w :: rest →
    ∃ t, step s = .next t ∧ t.mark = firstCause s w

/-- R109 and R110: a command can be stopped only with the codes its row lists; the mark records the command word, and
for `FLT_DIGIT_OVF` the digit position. -/
def Obligations.OnlyTheListedCodes : Prop :=
  ∀ (s t : State) (w : Word) (rest : List HostInput) (r : Stop), s.mark = none → s.port = .command w :: rest →
    step s = .next t → t.mark = some r →
    r.number ∈ possibleCodes (w.toNat / 4096) ∧ r.word = w ∧ ∀ d, r = .fltDigitOvf w d → d = s.digitPos

/-- R112: a command that is stopped sets `MARK` and has no other effect: `SHADOW`, `DIGIT_POS` and `INIT` keep their
values and no output is given. -/
def Obligations.EveryStopIsPrecise : Prop :=
  ∀ (s t : State) (w : Word) (rest : List HostInput), s.mark = none → s.port = .command w :: rest →
    step s = .next t → t.mark ≠ none → t = { s with port := rest, mark := t.mark }

/-- R113, as the model reads it: once `MARK` is set no command has a step, which is the fault `runEnded` (log entry 12,
DEDUCED), and only a reset clears it; a step that answers a next state then is that reset, or one with nothing presented,
which changes nothing (log entry 6, DESIGN CHOICE). -/
def Obligations.MarkIsSticky : Prop :=
  (∀ (s : State) (r : Stop) (w : Word) (rest : List HostInput), s.mark = some r → s.port = .command w :: rest →
    step s = .fault .runEnded) ∧
  (∀ s t : State, s.mark ≠ none → step s = .next t → t = s ∨ ∃ rest, s.port = .reset :: rest) ∧
  (∀ (s : State) (rest : List HostInput), s.port = .reset :: rest → ∃ t, step s = .next t ∧ t.mark = none)

/-- Every command, in every state, answers a next state, and a step stops only a command after the end of a run: this is
how the model carries the outcomes of R108 and the end of R113, and not what those rules say. That `Fault` and `Refuse`
outcomes are next states is log entry 1 (DEDUCED); that `exec` answers one with `MARK` set, entry 11 (DEDUCED); that a
step with nothing presented answers one, entry 6 (DESIGN CHOICE); that the stop is `runEnded`, entry 12 (DEDUCED). -/
def Obligations.NoCommandIsLeftWithoutAnOutcome : Prop :=
  (∀ (i : Instr) (s : State), ∃ t, exec i s = .next t) ∧
  ∀ s : State, (∃ t, step s = .next t) ∨
    (step s = .fault .runEnded ∧ s.mark ≠ none ∧ ∃ w rest, s.port = .command w :: rest)

/-! ## Reset and configuration (R7, R23, R28, R40, R123) -/

/-- R28 and R123: after reset `INIT = 0` and `MARK = None`, and the configuration is the configuration's own; the same
after a reset the host issues at any point. -/
def Obligations.ResetStartsARun : Prop :=
  State.reset.init = false ∧ State.reset.mark = none ∧ State.reset.config = Config.installed ∧
  ∀ (s : State) (rest : List HostInput), s.port = .reset :: rest →
    ∃ t, step s = .next t ∧ t.init = false ∧ t.mark = none ∧ t.config = s.config ∧ t.port = rest

/-- R40: a configuration whose flag locations lie in the segment region, or are equal, is refused at configuration
time. -/
def Obligations.IllFormedFlagLocationsAreRefused : Prop :=
  ∀ c : Config, (c.decLoc.inRegion = true ∨ c.colLoc.inRegion = true ∨ c.decLoc = c.colLoc) →
    launch c = .refused .illFormedConfig

/-- About the model's own construction: the configuration at reset is well formed; every well-formed configuration is a
choice of glyphs and of two free locations, so that none is shut out (log entry 2, DESIGN CHOICE, for what R7 leaves
open); and every one launches into a state after reset (log entry 3, DESIGN CHOICE). R133 gives no more than the name
`WellFormedConfig`. -/
def Obligations.EveryWellFormedConfigurationIsAdmitted : Prop :=
  Config.installed.wf ∧
  ∀ c : Config, c.wf →
    (∃ (glyph : Nat → SegMask) (d e : Nat), d < 72 ∧ e < 71 ∧ Config.ofChoices glyph d e = c) ∧
    ∃ t, launch c = .next t ∧ t.config = c ∧ t.AfterReset

/-- R23: no step changes the segment table or the flag locations. -/
def Obligations.NoStepChangesTheConfiguration : Prop := ∀ s t : State, step s = .next t → t.config = s.config

/-! ## Characters and the table (spec/40_lookup.md) -/

/-- R63: the index function on every byte. -/
def Obligations.IndexFunction : Prop :=
  ∀ c : Byte,
    (c = 0x20 → (idx c).val = 0) ∧
    (0x21 ≤ c ∧ c ≤ 0x7E → (idx c).val = (c.toNat - 0x21) + 1) ∧
    (c < 0x20 ∨ 0x7E < c → (idx c).val = 95) ∧
    (0x20 ≤ c ∧ c ≤ 0x7E → (idx c).val = c.toNat - 0x20)

/-- R64 and R65: every byte's class, the indices of the two modifiers, how many bytes each class has, and where the
index is injective. -/
def Obligations.IndexClasses : Prop :=
  (∀ c : Byte,
    (charClass c = .space ↔ c = 0x20) ∧ (charClass c = .decimal ↔ c = 0x2E) ∧ (charClass c = .colon ↔ c = 0x3A) ∧
    (charClass c = .glyph ↔ 0x21 ≤ c ∧ c ≤ 0x7E ∧ c ≠ 0x2E ∧ c ≠ 0x3A) ∧
    (charClass c = .unknown ↔ c ≤ 0x1F ∨ 0x7F ≤ c) ∧
    (charClass c = .unknown → idx c = 95) ∧
    (charClass c = .glyph → 1 ≤ (idx c).val ∧ (idx c).val ≤ 94 ∧ idx c ≠ 14 ∧ idx c ≠ 26)) ∧
  idx 0x20 = 0 ∧ idx 0x2E = 14 ∧ idx 0x3A = 26 ∧
  [CharClass.space, .decimal, .colon, .glyph, .unknown].map
    (fun k => ((List.range 256).filter fun n => charClass (BitVec.ofNat 8 n) == k).length) = [1, 1, 1, 92, 161] ∧
  ∀ a ∈ (List.range 0x5F), ∀ b ∈ (List.range 0x5F),
    idx (BitVec.ofNat 8 (0x20 + a)) = idx (BitVec.ofNat 8 (0x20 + b)) → a = b

/-- R70: a character's mask, and the two cases known in every well-formed configuration. -/
def Obligations.KnownMasks : Prop :=
  (∀ (cfg : Config) (c : Byte), enc cfg c = cfg.segTable[idx c]) ∧
  ∀ cfg : Config, cfg.wf → enc cfg 0x20 = 0x0000 ∧ ∀ c : Byte, c ≤ 0x1F ∨ 0x7F ≤ c → enc cfg c = 0x3FFF

/-- R71: `INDEX C` gives the character's index, in every state, and changes nothing else. -/
def Obligations.IndexResult : Prop :=
  ∀ (c : Byte) (s : State), encode (.index c) &&& 0xFF00 = 0x1000 ∧
    ∃ v : Word, exec (.index c) s = .next { s with outputs := s.outputs ++ [.value v] } ∧
      v.toNat = if c = 0x20 then 0 else if 0x21 ≤ c ∧ c ≤ 0x7E then (c.toNat - 0x21) + 1 else 95

/-- R72: `LOOKUP I` gives the table entry, zero-extended, in every state, and changes nothing else; from 96 on it is
refused. Entries 0 and 95 are the fixed ones of a well-formed configuration. -/
def Obligations.LookupResult : Prop :=
  (∀ (n : Fin 96) (s : State),
    encode (.lookup (BitVec.ofNat 7 n.val)) &&& 0xFF80 = 0x2000 ∧
    exec (.lookup (BitVec.ofNat 7 n.val)) s =
      .next { s with outputs := s.outputs ++ [.value (s.config.segTable[n].setWidth 16)] }) ∧
  (∀ (n : BitVec 7) (s : State), 96 ≤ n.toNat →
    exec (.lookup n) s = .next { s with mark := some (.refuse .refIndex (encode (.lookup n))) }) ∧
  (∀ s : State, s.config.wf →
    exec (.lookup 0) s = .next { s with outputs := s.outputs ++ [.value 0x0000] } ∧
    exec (.lookup 95) s = .next { s with outputs := s.outputs ++ [.value 0x3FFF] })

/-- R68 and R86: no command but `LOOKUP` can tell what the table holds at 14 and 26; those entries never reach
`SHADOW`. -/
def Obligations.ModifierEntriesReachOnlyLookup : Prop :=
  ∀ (i : Instr) (s t : State) (cfg : Config), sameButModifierEntries s.config cfg →
    i ≠ .lookup 14 → i ≠ .lookup 26 → exec i s = .next t →
    exec i { s with config := cfg } = .next { t with config := cfg }

/-! ## The mapper (spec/41_locate.md) -/

/-- R77: the closed form, and the table read from the addresses. -/
def Obligations.LocateClosedForm : Prop :=
  (∀ (g : Fin 14) (d : BitVec 2),
    (locate g d).addr.toNat = 2 * [0, 1, 2, 3, 4, 5, 6, 1, 0, 2, 3, 4, 5, 6].getD g.val 0 ∧
    (locate g d).bit.toNat = d.toNat + 4 * (if g.val ≥ 7 then 1 else 0)) ∧
  ∀ (k : Fin 7) (d : Fin 4),
    locate ⟨k.val, by omega⟩ (BitVec.ofNat 2 d.val) = ⟨BitVec.ofNat 4 (2 * k.val), BitVec.ofNat 3 d.val⟩ ∧
    locate (([8, 7, 9, 10, 11, 12, 13] : List (Fin 14)).getD k.val 0) (BitVec.ofNat 2 d.val) =
      ⟨BitVec.ofNat 4 (2 * k.val), BitVec.ofNat 3 (d.val + 4)⟩

/-- R79: the mapper is injective, its results are exactly the segment region, and two segments share a byte only at
different bits. -/
def Obligations.LocateIsABijectionOntoTheRegion : Prop :=
  (∀ (g g' : Fin 14) (d d' : BitVec 2), locate g d = locate g' d' → g = g' ∧ d = d') ∧
  (∀ (g : Fin 14) (d : BitVec 2), (locate g d).addr.toNat % 2 = 0 ∧ (locate g d).addr.toNat ≤ 12) ∧
  (∀ l : Loc, l.addr.toNat % 2 = 0 → l.addr.toNat ≤ 12 → ∃ g d, locate g d = l) ∧
  (∀ (g g' : Fin 14) (d d' : BitVec 2), g ≠ g' → (locate g d).addr = (locate g' d').addr →
    (locate g d).bit ≠ (locate g' d').bit)

/-- R80: `LOCATE S, D` gives the packed location, in every state, and changes nothing else; from 14 on the segment is
refused. -/
def Obligations.LocateResult : Prop :=
  (∀ (g : Fin 14) (d : BitVec 2) (s : State),
    encode (.locate (BitVec.ofNat 4 g.val) d) &&& 0xFFC0 = 0x3000 ∧
    ∃ v : Word, exec (.locate (BitVec.ofNat 4 g.val) d) s = .next { s with outputs := s.outputs ++ [.value v] } ∧
      v.toNat = (locate g d).addr.toNat * 8 + (locate g d).bit.toNat) ∧
  (∀ (g : BitVec 4) (d : BitVec 2) (s : State), 14 ≤ g.toNat →
    exec (.locate g d) s = .next { s with mark := some (.refuse .refSegment (encode (.locate g d))) })

/-! ## The renderer (spec/42_render.md) -/

/-- R87: `RENDER_AT C, D` with `INIT = 1` sets the bits the character lights at digit `D` and changes nothing else;
with `INIT = 0` it faults. -/
def Obligations.RenderAtResult : Prop :=
  (∀ (c : Byte) (d : BitVec 2), encode (.renderAt c d) &&& 0xFC00 = 0x4000) ∧
  (∀ (c : Byte) (d : BitVec 2) (s : State), s.init = true → s.shadow.wf →
    ∃ m, exec (.renderAt c d) s = .next { s with shadow := m, outputs := s.outputs ++ [.none] } ∧ m.wf ∧
      (∀ l, bitAt m l = true ↔ bitAt s.shadow l = true ∨ lights s.config c d l) ∧
      otherBytesKept s.config c d s.shadow m) ∧
  (∀ (c : Byte) (d : BitVec 2) (s : State), s.init = false →
    exec (.renderAt c d) s = .next { s with mark := some (.fltUninit (encode (.renderAt c d))) })

/-- R88 and R89: `PUTC` with `INIT = 1`: a modifier sets its flag bit and advances nothing, whatever `DIGIT_POS` holds;
an ordinary character is rendered at `DIGIT_POS` and advances it; with the display full it faults and changes nothing
else. With `INIT = 0` every character faults. -/
def Obligations.PutcResult : Prop :=
  (∀ c : Byte, encode (.putc c) &&& 0xFF00 = 0x5000) ∧
  (∀ (c : Byte) (s : State), c = 0x2E ∨ c = 0x3A → s.init = true → s.shadow.wf →
    ∃ m, exec (.putc c) s = .next { s with shadow := m, outputs := s.outputs ++ [.none] } ∧ m.wf ∧
      (∀ l, bitAt m l = true ↔
        bitAt s.shadow l = true ∨ l = if c = 0x2E then s.config.decLoc else s.config.colLoc) ∧
      otherBytesKept s.config c 0 s.shadow m) ∧
  (∀ (c : Byte) (s : State), c ≠ 0x2E → c ≠ 0x3A → s.init = true → s.digitPos.toNat < 4 → s.shadow.wf →
    ∃ m, exec (.putc c) s =
        .next { s with shadow := m, digitPos := s.digitPos + 1, outputs := s.outputs ++ [.none] } ∧ m.wf ∧
      (s.digitPos + 1).toNat = s.digitPos.toNat + 1 ∧
      (∀ l, bitAt m l = true ↔
        bitAt s.shadow l = true ∨ inImage (enc s.config c) (BitVec.ofNat 2 s.digitPos.toNat) l) ∧
      otherBytesKept s.config c (BitVec.ofNat 2 s.digitPos.toNat) s.shadow m) ∧
  (∀ (c : Byte) (s : State), c ≠ 0x2E → c ≠ 0x3A → s.init = true → 4 ≤ s.digitPos.toNat →
    exec (.putc c) s = .next { s with mark := some (.fltDigitOvf (encode (.putc c)) s.digitPos) }) ∧
  (∀ (c : Byte) (s : State), s.init = false →
    exec (.putc c) s = .next { s with mark := some (.fltUninit (encode (.putc c))) })

/-- R84: a space changes no byte; an UNKNOWN byte ORs `0x11 << d` into each even byte 0..12 and changes no other. -/
def Obligations.SpaceAndUnknownImages : Prop :=
  ∀ (cfg : Config) (m : Memory) (d : BitVec 2), cfg.wf → m.wf →
    renderInto cfg 0x20 d m = m ∧
    ∀ c : Byte, c ≤ 0x1F ∨ 0x7F ≤ c → ∀ a : Addr,
      readByte (renderInto cfg c d m) a =
        if a.toNat % 2 = 0 ∧ a.toNat ≤ 12 then readByte m a ||| (0x11#8 <<< d.toNat) else readByte m a

/-- R85: a render only sets bits; two characters rendered into one digit leave the union of their images. -/
def Obligations.RendersAccumulate : Prop :=
  ∀ (c c' : Byte) (d : BitVec 2) (s t u : State), s.init = true → s.shadow.wf →
    exec (.renderAt c d) s = .next t → exec (.renderAt c' d) t = .next u →
    ∀ l, bitAt u.shadow l = true ↔ bitAt s.shadow l = true ∨ lights s.config c d l ∨ lights s.config c' d l

/-- R38: a render is idempotent for the shadow RAM, and `PUTC` of an ordinary character is not. -/
def Obligations.RenderAtIsIdempotent : Prop :=
  (∀ (c : Byte) (d : BitVec 2) (s t u : State), s.shadow.wf →
    exec (.renderAt c d) s = .next t → exec (.renderAt c d) t = .next u → u.shadow = t.shadow) ∧
  (∀ (c : Byte) (s t : State), c ≠ 0x2E → c ≠ 0x3A → s.init = true → s.digitPos.toNat < 4 →
    exec (.putc c) s = .next t → t.digitPos ≠ s.digitPos)

/-- R86: the render of a modifier reads no entry of the table and does not use its digit: with another table and
another digit it does the same. -/
def Obligations.ModifierReadsNeitherTableNorDigit : Prop :=
  ∀ (c : Byte) (d d' : BitVec 2) (s t : State) (table : Vector SegMask 96), c = 0x2E ∨ c = 0x3A →
    s.init = true → exec (.renderAt c d) s = .next t →
    exec (.renderAt c d') { s with config := { s.config with segTable := table } } =
      .next { t with config := { s.config with segTable := table } }

/-- R21, R22, R82 and R83: a flag is set by its own character, cleared by `RESET_BUF` and `CLEAR`, and changed by
nothing else, under a well-formed configuration. -/
def Obligations.FlagsAreSetByTheirCharacterOnly : Prop :=
  ∀ (i : Instr) (s t : State), s.config.wf → s.shadow.wf → exec i s = .next t → t.mark = none →
    (t.decFlag = true ↔ (i = .putc 0x2E ∨ ∃ d, i = .renderAt 0x2E d) ∨
      (s.decFlag = true ∧ i ≠ .resetBuf ∧ i ≠ .clear)) ∧
    (t.colFlag = true ↔ (i = .putc 0x3A ∨ ∃ d, i = .renderAt 0x3A d) ∨
      (s.colFlag = true ∧ i ≠ .resetBuf ∧ i ≠ .clear))

/-! ## The buffer (spec/43_buffer.md) -/

/-- R94: `NOP` (0x0000) does nothing: its output is `None` and no other field changes. -/
def Obligations.NopResult : Prop :=
  encode .nop = 0x0000 ∧ ∀ s : State, exec .nop s = .next { s with outputs := s.outputs ++ [.none] }

/-- R95: `RESET_BUF` (0x6000) zeroes every shadow byte and `DIGIT_POS`, sets `INIT`, clears both flags, emits no frame
and changes nothing else. -/
def Obligations.ResetBufResult : Prop :=
  encode .resetBuf = 0x6000 ∧ ∀ s : State, ∃ m,
    exec .resetBuf s =
      .next { s with shadow := m, digitPos := 0, init := true, outputs := s.outputs ++ [.none] } ∧ m.wf ∧
    (∀ a, readByte m a = 0x00) ∧ bitAt m s.config.decLoc = false ∧ bitAt m s.config.colLoc = false

/-- R96: `CLEAR` (0x7000) does what `RESET_BUF` does and emits a frame of 17 zero bytes. -/
def Obligations.ClearResult : Prop :=
  encode .clear = 0x7000 ∧ ∀ s : State, ∃ m f,
    exec .clear s =
      .next { s with shadow := m, digitPos := 0, init := true, outputs := s.outputs ++ [.frame f] } ∧ m.wf ∧
    (∀ a, readByte m a = 0x00) ∧ bitAt m s.config.decLoc = false ∧ bitAt m s.config.colLoc = false ∧
    ∀ k : Fin 17, f[k] = 0x00

/-- R97: `READ A` with `INIT = 1` gives the shadow byte and changes nothing; with `INIT = 0` it faults. The last clause, that
addresses 14 and 15 and every odd address read 0 where no flag bit lies, is the model's reading (log entry 14, DEDUCED):
R97 and R29 name all of 14 and 15, and R40 allows a flag bit there. -/
def Obligations.ReadResult : Prop :=
  (∀ a : Addr, encode (.read a) &&& 0xFFF0 = 0x8000) ∧
  (∀ (a : Addr) (s : State), s.init = true →
    exec (.read a) s =
      .next { s with outputs := s.outputs ++ [.value ((readByte s.shadow a).setWidth 16)] }) ∧
  (∀ (a : Addr) (s : State), s.init = false →
    exec (.read a) s = .next { s with mark := some (.fltUninit (encode (.read a))) }) ∧
  (∀ (a : Addr) (s : State), s.Inv → s.init = true → a.toNat % 2 = 1 ∨ 14 ≤ a.toNat →
    s.config.decLoc.addr ≠ a → s.config.colLoc.addr ≠ a →
    exec (.read a) s = .next { s with outputs := s.outputs ++ [.value 0x0000] })

/-- R93 and R98: `SYNC` (0x9000) with `INIT = 1` emits the frame, the opcode 0x00 and then the sixteen shadow bytes in
ascending order, and changes nothing; a second `SYNC` emits an equal frame; with `INIT = 0` it faults. -/
def Obligations.SyncResult : Prop :=
  encode .sync = 0x9000 ∧
  (∀ s : State, s.init = true → ∃ f : Vector Byte 17,
    exec .sync s = .next { s with outputs := s.outputs ++ [.frame f] } ∧ f[0] = 0x00 ∧
    (∀ k : Fin 16, f[1 + k.val] = readByte s.shadow (BitVec.ofNat 4 k.val)) ∧
    exec .sync { s with outputs := s.outputs ++ [.frame f] } =
      .next { s with outputs := s.outputs ++ [.frame f] ++ [.frame f] }) ∧
  (∀ s : State, s.init = false → exec .sync s = .next { s with mark := some (.fltUninit (encode .sync)) })

/-- R27 and R99: what kind of output each command gives; exactly `CLEAR` and `SYNC` emit a frame. -/
def Obligations.EachCommandsKindOfOutput : Prop :=
  ∀ (i : Instr) (s t : State), s.mark = none → exec i s = .next t → t.mark = none →
    ∃ o, t.outputs = s.outputs ++ [o] ∧
      ((∃ f, o = .frame f) ↔ i = .clear ∨ i = .sync) ∧
      (o = .none ↔ i = .nop ∨ i = .resetBuf ∨ (∃ c d, i = .renderAt c d) ∨ ∃ c, i = .putc c) ∧
      ((∃ v, o = .value v) ↔
        (∃ c, i = .index c) ∨ (∃ n, i = .lookup n) ∨ (∃ g d, i = .locate g d) ∨ ∃ a, i = .read a)

/-- R27: outputs are not state: no command reads what was output before. -/
def Obligations.OutputsAreNeverRead : Prop :=
  ∀ (i : Instr) (s t : State) (before : List Output), exec i s = .next t →
    exec i { s with outputs := before ++ s.outputs } = .next { t with outputs := before ++ t.outputs }

/-- R38: a read has no effect on the state, and repeating it gives the same output. -/
def Obligations.ReadsHaveNoSideEffect : Prop :=
  ∀ (i : Instr) (s t u : State),
    (∃ a, i = .read a) ∨ i = .sync ∨ (∃ c, i = .index c) ∨ (∃ n, i = .lookup n) ∨ (∃ g d, i = .locate g d) →
    exec i s = .next t → t.mark = none → exec i t = .next u →
    t.shadow = s.shadow ∧ t.digitPos = s.digitPos ∧ t.init = s.init ∧
    ∃ o, t.outputs = s.outputs ++ [o] ∧ u.outputs = s.outputs ++ [o] ++ [o]

/-! ## The write sequence (R101 to R106) -/

/-- R102 and R103: `WRITE` truncates by bytes, and its result is `min(n, 4)`. -/
def Obligations.WriteTruncatesByBytes : Prop :=
  ∀ (s : State) (bs : List Byte),
    s.presentWrite bs = s.presentWrite (bs.take 4) ∧ writeResult bs = min bs.length 4 ∧
    (writeExpand bs).length = min bs.length 4 + 2

/-- R104: the end state of `WRITE`, from any state with `MARK = None`. -/
def Obligations.WriteEndState : Prop :=
  ∀ (s : State) (bs : List Byte), s.mark = none →
    let used := bs.take 4
    let ordinary := used.filter fun c => c ≠ 0x2E ∧ c ≠ 0x3A
    ∃ t, Host.Core.run core (writeExpand bs).length (s.presentWrite bs) = .next t ∧
      t.digitPos.toNat = ordinary.length ∧ t.init = true ∧ t.mark = none ∧ t.port = s.port ∧
      t.config = s.config ∧ t.shadow.wf ∧
      (∀ l, bitAt t.shadow l = true ↔
        (∃ (j : Nat) (c : Byte), ordinary[j]? = some c ∧ inImage (enc s.config c) (BitVec.ofNat 2 j) l) ∨
        (0x2E ∈ used ∧ l = s.config.decLoc) ∨ (0x3A ∈ used ∧ l = s.config.colLoc)) ∧
      ∃ f : Vector Byte 17, t.outputs = s.outputs ++ List.replicate (used.length + 1) .none ++ [.frame f] ∧
        f[0] = 0x00 ∧ ∀ k : Fin 16, f[1 + k.val] = readByte t.shadow (BitVec.ofNat 4 k.val)

/-- R105 and R106: `WRITE` never faults, every word it emits is legal, and it emits its one frame at its end, which for
no bytes is 17 zero bytes. -/
def Obligations.WriteNeverFaultsAndEmitsOneFrame : Prop :=
  ∀ (s : State) (bs : List Byte), s.mark = none →
    (∀ i ∈ writeExpand bs, decode (encode i) = .cmd i) ∧
    (∀ k ≤ (writeExpand bs).length, ∃ t outs, Host.Core.run core k (s.presentWrite bs) = .next t ∧ t.mark = none ∧
      t.outputs = s.outputs ++ outs ∧ outs.length = k ∧
      (outs.filter Output.isFrame).length = if k = (writeExpand bs).length then 1 else 0) ∧
    ∃ t, Host.Core.run core 2 (s.presentWrite []) = .next t ∧
      t.outputs = s.outputs ++ [.none, .frame (Vector.replicate 17 0x00)]

/-! ## Whole-machine rules (R17, R19, R20, R29) -/

/-- R17: `SHADOW` changes in two ways only: bits are set, by a render, or all sixteen bytes are zeroed, by `RESET_BUF`
or `CLEAR`. -/
def Obligations.ShadowChangesInTwoWaysOnly : Prop :=
  ∀ (i : Instr) (s t : State), s.shadow.wf → exec i s = .next t →
    ((i = .resetBuf ∨ i = .clear) ∧ ∀ a, readByte t.shadow a = 0x00) ∨
    ((∀ l, bitAt s.shadow l = true → bitAt t.shadow l = true) ∧
      ∀ l, bitAt t.shadow l = true → bitAt s.shadow l = false →
        ∃ c d, (i = .renderAt c d ∨ i = .putc c) ∧ lights s.config c d l)

/-- R19: how `DIGIT_POS` moves: one up for an ordinary character, to 0 by `RESET_BUF` and `CLEAR`, and not otherwise. -/
def Obligations.DigitPositionAdvancesOncePerOrdinaryCharacter : Prop :=
  ∀ (i : Instr) (s t : State), exec i s = .next t → t.mark = none →
    ((i = .resetBuf ∨ i = .clear) → t.digitPos = 0) ∧
    (∀ c, i = .putc c → c ≠ 0x2E → c ≠ 0x3A → t.digitPos.toNat = s.digitPos.toNat + 1) ∧
    (i ≠ .resetBuf → i ≠ .clear → (∀ c, i = .putc c → c = 0x2E ∨ c = 0x3A) → t.digitPos = s.digitPos)

/-- R20: `INIT` is 0 after reset, it is set by `RESET_BUF` and `CLEAR` and by nothing else, and no command clears it; a command that reads
the shadow RAM or the digit position before then faults, whatever they hold. -/
def Obligations.InitIsSetByResetBufAndClearOnly : Prop :=
  State.reset.init = false ∧
  (∀ (i : Instr) (s t : State), exec i s = .next t →
    (t.init = true ↔ s.init = true ∨ i = .resetBuf ∨ i = .clear)) ∧
  (∀ (i : Instr) (s : State),
    (∃ c d, i = .renderAt c d) ∨ (∃ c, i = .putc c) ∨ (∃ a, i = .read a) ∨ i = .sync → s.init = false →
    exec i s = .next { s with mark := some (.fltUninit (encode i)) })

/-- R19 and R29: every step keeps the invariant: the shadow RAM in canonical form, and once `INIT = 1`, `DIGIT_POS` at
most 4 and every bit outside the segment region and the two flag bits 0. -/
def Obligations.EveryStepKeepsTheInvariant : Prop := ∀ s t : State, s.Inv → step s = .next t → t.Inv

/-- The invariant holds at reset, and in whatever state a launch or a reset of the host's leaves. -/
def Obligations.TheInvariantHoldsAtReset : Prop :=
  State.reset.Inv ∧ (∀ (c : Config) (t : State), launch c = .next t → t.Inv) ∧ ∀ s : State, s.hostReset.Inv

/-- R20 and R28: no run can tell what `SHADOW` and `DIGIT_POS` held while `INIT = 0`: two runs that differ in nothing
else end alike, with equal outputs and marks, and with equal shadow RAM and digit position once `INIT = 1`. So the
values that the model's own `State.reset` gives the two (log entry 4) decide nothing that a run shows. -/
def Obligations.UnsetStateIsNeverObserved : Prop :=
  ∀ (k : Nat) (s t : State), SameButUnset s t →
    (∃ s' t', Host.Core.run core k s = .next s' ∧ Host.Core.run core k t = .next t' ∧ SameButUnset s' t') ∨
    (Host.Core.run core k s = .fault .runEnded ∧ Host.Core.run core k t = .fault .runEnded)

/-! ## Ends of runs (R132) -/

/-- R132: a run ends, in one of its two ways and at no earlier command. From a state with `MARK = None` whose host presents
the words `ws` and then no further command of this run, some number `k` of steps leads to its end: all the words ran and
it ends successfully, or the `k`-th word was stopped and the words after it are left. Before that the run goes on, and
every command that ran has given its one output. That a stopped word is a step is log entry 1 (DEDUCED), the port is
entry 7 (DESIGN CHOICE), and that a reset ends a run entry 16 (DEDUCED). -/
def Obligations.EveryRunEndsInOneOfTwoWays : Prop :=
  ∀ (s : State) (ws : List Word) (rest : List HostInput), s.mark = none →
    s.port = ws.map .command ++ rest → (∀ w rest', rest ≠ .command w :: rest') →
    ∃ k t outs, k ≤ ws.length ∧ Host.Core.run core k s = .next t ∧ t.outputs = s.outputs ++ outs ∧
      t.port = (ws.drop k).map .command ++ rest ∧
      (t.EndsWell ∧ k = ws.length ∧ outs.length = k ∨ t.EndsUnsuccessfully ∧ outs.length + 1 = k) ∧
      ∀ j < k, ∃ u, Host.Core.run core j s = .next u ∧ u.mark = none ∧ u.noFurtherCommand = false
end

