-- ==== Sys2Proof/Laws/Config.lean ====
section
/-! SUPPORT. The configuration: the free locations are the 72 outside the segment region, each once, so that the
choices of `Config.ofChoices` give well-formed configurations and all of them. -/

namespace Sys2Proof

/-- A free location is outside the segment region (R40). -/
theorem Config.freeLoc_not_inRegion : ∀ n < 72, (Config.freeLoc n).inRegion = false := by decide

/-- The free locations are different. -/
theorem Config.freeLoc_injective : ∀ m < 72, ∀ n < 72, Config.freeLoc m = Config.freeLoc n → m = n := by
  intro m hm n hn h
  have code : ∀ n < 72, (let l := Config.freeLoc n; if l.addr = 14 then 64 + l.bit.toNat else
      8 * (l.addr.toNat / 2) + l.bit.toNat) = n := by decide
  have h₁ := code m hm
  rw [h, code n hn] at h₁
  exact h₁.symm

/-- Every location outside the segment region is a free location (R39, R41). -/
theorem Config.freeLoc_surjective (l : Loc) (h : l.inRegion = false) : ∃ n < 72, Config.freeLoc n = l := by
  obtain ⟨a, b⟩ := l
  refine ⟨if a = 14 then 64 + b.toNat else 8 * (a.toNat / 2) + b.toNat, ?_⟩
  revert a b
  decide

/-- Any choice of glyphs and of two different free locations is a well-formed configuration (R133). -/
theorem Config.ofChoices_wf (glyph : Nat → SegMask) {d c : Nat} (hd : d < 72) (hc : c < 71) :
    (Config.ofChoices glyph d c).wf := by
  have hc' : (if c < d then c else c + 1) < 72 := by split <;> omega
  refine ⟨by simp [Config.ofChoices, Config.tableOf],
    by simp [Config.ofChoices, Config.tableOf]; decide,
    Config.freeLoc_not_inRegion d hd, Config.freeLoc_not_inRegion _ hc', fun h => ?_⟩
  have := Config.freeLoc_injective d hd _ hc' h
  split at this <;> omega

end Sys2Proof
end

