-- ==== Sys2Proof/Laws/State.lean ====
section
/-! SUPPORT. The small lemmas of the state's updates: one for each field that an operation leaves or sets, so that no
proof unfolds a record update; and what the two ways a command ends can answer. -/

namespace Sys2Proof.Machine

variable (s : State)

/-! ## `zeroBuf` (R95, R96) -/

@[simp] theorem State.zeroBuf_config : s.zeroBuf.config = s.config := rfl
@[simp] theorem State.zeroBuf_shadow : s.zeroBuf.shadow = [] := rfl
@[simp] theorem State.zeroBuf_digitPos : s.zeroBuf.digitPos = 0 := rfl
@[simp] theorem State.zeroBuf_init : s.zeroBuf.init = true := rfl
@[simp] theorem State.zeroBuf_mark : s.zeroBuf.mark = s.mark := rfl
@[simp] theorem State.zeroBuf_outputs : s.zeroBuf.outputs = s.outputs := rfl
@[simp] theorem State.zeroBuf_port : s.zeroBuf.port = s.port := rfl
@[simp] theorem State.zeroBuf_freeCount : s.zeroBuf.freeCount = s.freeCount := rfl

/-! ## `render` (R81) -/

@[simp] theorem State.render_config (c : Byte) (d : BitVec 2) : (s.render c d).config = s.config := rfl
@[simp] theorem State.render_shadow (c : Byte) (d : BitVec 2) :
    (s.render c d).shadow = renderInto s.config c d s.shadow := rfl
@[simp] theorem State.render_digitPos (c : Byte) (d : BitVec 2) : (s.render c d).digitPos = s.digitPos := rfl
@[simp] theorem State.render_init (c : Byte) (d : BitVec 2) : (s.render c d).init = s.init := rfl
@[simp] theorem State.render_mark (c : Byte) (d : BitVec 2) : (s.render c d).mark = s.mark := rfl
@[simp] theorem State.render_outputs (c : Byte) (d : BitVec 2) : (s.render c d).outputs = s.outputs := rfl
@[simp] theorem State.render_port (c : Byte) (d : BitVec 2) : (s.render c d).port = s.port := rfl
@[simp] theorem State.render_freeCount (c : Byte) (d : BitVec 2) : (s.render c d).freeCount = s.freeCount := rfl

/-! ## `hostReset` (R28, R123) -/

@[simp] theorem State.hostReset_config : s.hostReset.config = s.config := rfl
@[simp] theorem State.hostReset_shadow : s.hostReset.shadow = freeShadow s.freeCount := rfl
@[simp] theorem State.hostReset_digitPos : s.hostReset.digitPos = Config.freeDigit s.freeCount := rfl
@[simp] theorem State.hostReset_init : s.hostReset.init = false := rfl
@[simp] theorem State.hostReset_mark : s.hostReset.mark = none := rfl
@[simp] theorem State.hostReset_outputs : s.hostReset.outputs = [] := rfl
@[simp] theorem State.hostReset_port : s.hostReset.port = s.port := rfl
@[simp] theorem State.hostReset_freeCount : s.hostReset.freeCount = s.freeCount + 1 := rfl

/-! ## `present` (R48) -/

@[simp] theorem State.present_config (ws : List Word) : (s.present ws).config = s.config := rfl
@[simp] theorem State.present_shadow (ws : List Word) : (s.present ws).shadow = s.shadow := rfl
@[simp] theorem State.present_digitPos (ws : List Word) : (s.present ws).digitPos = s.digitPos := rfl
@[simp] theorem State.present_init (ws : List Word) : (s.present ws).init = s.init := rfl
@[simp] theorem State.present_mark (ws : List Word) : (s.present ws).mark = s.mark := rfl
@[simp] theorem State.present_outputs (ws : List Word) : (s.present ws).outputs = s.outputs := rfl
@[simp] theorem State.present_port (ws : List Word) : (s.present ws).port = ws.map .command ++ s.port := rfl
@[simp] theorem State.present_freeCount (ws : List Word) : (s.present ws).freeCount = s.freeCount := rfl

/-! ## How a command ends (R12, R112) -/

variable {s} {t : State}

/-- `Ok(out)` answers one next state: the output is added, nothing else changes. -/
theorem State.emit_eq_next {o : Output} :
    s.emit o = .next t ↔ t = { s with outputs := s.outputs ++ [o] } := by
  unfold State.emit
  exact ⟨fun h => (Host.Outcome.next.inj h).symm, fun h => h ▸ rfl⟩

/-- A fault or refusal answers one next state: `MARK` is set, nothing else changes. -/
theorem State.raise_eq_next {r : Stop} : s.raise r = .next t ↔ t = { s with mark := some r } := by
  unfold State.raise
  exact ⟨fun h => (Host.Outcome.next.inj h).symm, fun h => h ▸ rfl⟩

end Sys2Proof.Machine
end

