-- ==== Sys2Proof/Laws/Exec.lean ====
section
/-! SUPPORT. What a command, and a step, can do, said once: the inversion lemmas of `exec`, `runWord` and `step`. -/

namespace Sys2Proof.Machine

variable {i : Instr} {s t : State}

/-- The commands that only give an output, and the output each gives (R71, R72, R80, R94, R97, R98). -/
inductive Quiet : Instr → State → Output → Prop
  | nop (s : State) : Quiet .nop s .none
  | index (c : Byte) (s : State) : Quiet (.index c) s (.value (BitVec.ofNat 16 (idx c).val))
  | lookup (n : BitVec 7) (s : State) (h : n.toNat < 96) :
      Quiet (.lookup n) s (.value (s.config.segTable[n.toNat].setWidth 16))
  | locate (g : BitVec 4) (d : BitVec 2) (s : State) (h : g.toNat < 14) :
      Quiet (.locate g d) s (.value (locValue (locate ⟨g.toNat, h⟩ d)))
  | read (a : Addr) (s : State) (h : s.init = true) : Quiet (.read a) s (.value ((readByte s.shadow a).setWidth 16))
  | sync (s : State) (h : s.init = true) : Quiet .sync s (.frame (frameOf s.shadow))

/-- When a command is stopped, and what for (R54, R89, R109, R110). -/
inductive Stopped : Instr → State → Stop → Prop
  | lookup (n : BitVec 7) (s : State) (h : 96 ≤ n.toNat) : Stopped (.lookup n) s (.refuse .refIndex (encode (.lookup n)))
  | locate (g : BitVec 4) (d : BitVec 2) (s : State) (h : 14 ≤ g.toNat) :
      Stopped (.locate g d) s (.refuse .refSegment (encode (.locate g d)))
  | renderAt (c : Byte) (d : BitVec 2) (s : State) (h : s.init = false) :
      Stopped (.renderAt c d) s (.fltUninit (encode (.renderAt c d)))
  | putc (c : Byte) (s : State) (h : s.init = false) : Stopped (.putc c) s (.fltUninit (encode (.putc c)))
  | read (a : Addr) (s : State) (h : s.init = false) : Stopped (.read a) s (.fltUninit (encode (.read a)))
  | sync (s : State) (h : s.init = false) : Stopped .sync s (.fltUninit (encode .sync))
  | full (c : Byte) (s : State) (hinit : s.init = true) (hc : isModifier c = false) (hd : 4 ≤ s.digitPos.toNat) :
      Stopped (.putc c) s (.fltDigitOvf (encode (.putc c)) s.digitPos)

/-- What a command that runs does: give an output and nothing else; zero the buffer (R95, R96); render and stay (R87,
R88); render at `DIGIT_POS` and advance (R88). -/
inductive Ran (i : Instr) (s t : State) : Prop where
  | out (o : Output) (hi : Quiet i s o) (h : t = { s with outputs := s.outputs ++ [o] })
  | zero (o : Output) (hi : i = .resetBuf ∧ o = .none ∨ i = .clear ∧ o = .frame (frameOf []))
      (h : t = { s.zeroBuf with outputs := s.outputs ++ [o] })
  | render (c : Byte) (d : BitVec 2) (hi : i = .renderAt c d ∨ i = .putc c ∧ isModifier c = true ∧ d = 0)
      (hinit : s.init = true) (h : t = { s.render c d with outputs := s.outputs ++ [.none] })
  | advance (c : Byte) (hi : i = .putc c) (hc : isModifier c = false) (hinit : s.init = true)
      (hd : s.digitPos.toNat < 4)
      (h : t = { s.render c (s.digitPos.setWidth 2) with
        digitPos := s.digitPos + 1, outputs := s.outputs ++ [.none] })

/-- A command either is stopped, which sets `MARK` and changes nothing else (R112), or runs. -/
theorem exec_cases (h : exec i s = .next t) :
    (∃ r, Stopped i s r ∧ t = { s with mark := some r }) ∨ Ran i s t := by
  cases i with
  | nop => exact .inr (.out _ (.nop s) (State.emit_eq_next.mp h))
  | index c => exact .inr (.out _ (.index c s) (State.emit_eq_next.mp h))
  | lookup n =>
    simp only [exec, execLookup] at h
    split at h
    · exact .inr (.out _ (.lookup n s ‹_›) (State.emit_eq_next.mp h))
    · exact .inl ⟨_, .lookup n s (Nat.le_of_not_lt ‹_›), State.raise_eq_next.mp h⟩
  | locate g d =>
    simp only [exec, execLocate] at h
    split at h
    · exact .inr (.out _ (.locate g d s ‹_›) (State.emit_eq_next.mp h))
    · exact .inl ⟨_, .locate g d s (Nat.le_of_not_lt ‹_›), State.raise_eq_next.mp h⟩
  | renderAt c d =>
    simp only [exec, execRenderAt] at h
    split at h
    · exact .inr (.render c d (.inl rfl) ‹_› (State.emit_eq_next.mp h))
    · exact .inl ⟨_, .renderAt c d s (Bool.eq_false_iff.mpr ‹_›), State.raise_eq_next.mp h⟩
  | putc c =>
    simp only [exec, execPutc] at h
    split at h
    · split at h
      · exact .inr (.render c 0 (.inr ⟨rfl, ‹_›, rfl⟩) ‹_› (State.emit_eq_next.mp h))
      · have hc : isModifier c = false := Bool.eq_false_iff.mpr ‹_›
        split at h
        · exact .inl ⟨_, .full c s ‹_› hc ‹_›, State.raise_eq_next.mp h⟩
        · exact .inr (.advance c rfl hc ‹_› (Nat.lt_of_not_le ‹_›) (State.emit_eq_next.mp h))
    · exact .inl ⟨_, .putc c s (Bool.eq_false_iff.mpr ‹_›), State.raise_eq_next.mp h⟩
  | resetBuf => exact .inr (.zero _ (.inl ⟨rfl, rfl⟩) (State.emit_eq_next.mp h))
  | clear => exact .inr (.zero _ (.inr ⟨rfl, rfl⟩) (State.emit_eq_next.mp h))
  | read a =>
    simp only [exec, execRead] at h
    split at h
    · exact .inr (.out _ (.read a s ‹_›) (State.emit_eq_next.mp h))
    · exact .inl ⟨_, .read a s (Bool.eq_false_iff.mpr ‹_›), State.raise_eq_next.mp h⟩
  | sync =>
    simp only [exec, execSync] at h
    split at h
    · exact .inr (.out _ (.sync s ‹_›) (State.emit_eq_next.mp h))
    · exact .inl ⟨_, .sync s (Bool.eq_false_iff.mpr ‹_›), State.raise_eq_next.mp h⟩

/-- A quiet command ends with its output. -/
theorem Quiet.exec_eq {o : Output} (h : Quiet i s o) : exec i s = .next { s with outputs := s.outputs ++ [o] } := by
  cases h with
  | lookup n _ h => simp only [exec, execLookup, dif_pos h, State.emit]
  | locate g d _ h => simp only [exec, execLocate, dif_pos h, State.emit]
  | read a _ h => simp only [exec, execRead, if_pos h, State.emit]
  | sync _ h => simp only [exec, execSync, if_pos h, State.emit]
  | _ => rfl

/-- A stopped command sets `MARK` and nothing else (R112). -/
theorem Stopped.exec_eq {r : Stop} (h : Stopped i s r) : exec i s = .next { s with mark := some r } := by
  cases h with
  | lookup n _ h => simp only [exec, execLookup, dif_neg (Nat.not_lt.mpr h), State.raise]
  | locate g d _ h => simp only [exec, execLocate, dif_neg (Nat.not_lt.mpr h), State.raise]
  | renderAt c d _ h => simp [exec, execRenderAt, h, State.raise]
  | putc c _ h => simp [exec, execPutc, h, State.raise]
  | read a _ h => simp [exec, execRead, h, State.raise]
  | sync _ h => simp [exec, execSync, h, State.raise]
  | full c _ hinit hc hd => simp [exec, execPutc, hinit, hc, hd, State.raise]

/-- `RENDER_AT` with `INIT = 1`. -/
theorem exec_renderAt_eq (c : Byte) (d : BitVec 2) (h : s.init = true) :
    exec (.renderAt c d) s = .next { s.render c d with outputs := s.outputs ++ [.none] } := by
  simp only [exec, execRenderAt, if_pos h, State.emit, State.render_outputs]

/-- `PUTC` of a modifier with `INIT = 1`. -/
theorem exec_putc_modifier_eq {c : Byte} (h : s.init = true) (hc : isModifier c = true) :
    exec (.putc c) s = .next { s.render c 0 with outputs := s.outputs ++ [.none] } := by
  simp only [exec, execPutc, if_pos h, if_pos hc, State.emit, State.render_outputs]

/-- `PUTC` of an ordinary character with `INIT = 1` and a cell left. -/
theorem exec_putc_ordinary_eq {c : Byte} (h : s.init = true) (hc : isModifier c = false) (hd : s.digitPos.toNat < 4) :
    exec (.putc c) s = .next { s.render c (s.digitPos.setWidth 2) with
      digitPos := s.digitPos + 1, outputs := s.outputs ++ [.none] } := by
  simp [exec, execPutc, h, hc, Nat.not_le.mpr hd, State.emit]

/-- What the first word of the port leads to (R43, R113). -/
theorem step_cases (h : step s = .next t) :
    s.port = [] ∧ t = s ∨
    (∃ w rest i, s.port = .command w :: rest ∧ s.mark = none ∧ decode w = .cmd i ∧
      exec i { s with port := rest } = .next t) ∨
    (∃ w rest code, s.port = .command w :: rest ∧ s.mark = none ∧ decode w = .refuse code ∧
      t = { s with port := rest, mark := some (.refuse code w) }) ∨
    (∃ rest, s.port = .reset :: rest ∧ t = { s with port := rest }.hostReset) := by
  unfold step takeInput at h
  split at h
  · exact .inl ⟨‹_›, (Host.Outcome.next.inj h).symm⟩
  · rename_i w rest hp
    unfold runWord at h
    split at h
    · cases h
    · split at h
      · exact .inr (.inl ⟨w, rest, _, hp, ‹_›, ‹_›, h⟩)
      · exact .inr (.inr (.inl ⟨w, rest, _, hp, ‹_›, ‹_›, State.raise_eq_next.mp h⟩))
  · rename_i rest hp
    exact .inr (.inr (.inr ⟨rest, hp, (Host.Outcome.next.inj h).symm⟩))

end Sys2Proof.Machine
end

