-- ==== Sys2Proof/Laws/Memory.lean ====
section
/-! SUPPORT. The laws of the shadow RAM: what a read answers after a write, that every operation keeps the canonical
form, and that memories in canonical form with the same bytes are equal. -/

namespace Sys2Proof.Machine

/-! ## Cells -/

/-- An address below every listed one is unlisted. -/
theorem readCell_of_lt {m : Memory} {a : Nat} (h : ∀ x ∈ m, a < x.1) : readCell m a = unlistedByte := by
  induction m with
  | nil => rfl
  | cons x m ih =>
    have hx := h x (by simp)
    rw [readCell, if_neg (by omega)]
    exact ih fun y hy => h y (by simp [hy])

/-- Read after write, for addresses strictly rising. -/
theorem readCell_writeCell {m : Memory} (hm : m.Pairwise (fun x y => x.1 < y.1)) (a b : Nat) (v : Byte) :
    readCell (writeCell m a v) b = if b = a then v else readCell m b := by
  induction m with
  | nil =>
    by_cases hv : v = unlistedByte <;> by_cases hb : b = a <;> simp [writeCell, readCell, hv, hb, eq_comm]
    intro h; exact absurd h.symm hb
  | cons x m ih =>
    obtain ⟨k, u⟩ := x
    obtain ⟨hlt, hm⟩ := List.pairwise_cons.mp hm
    have hread (a : Nat) (ha : a ≤ k) : readCell m a = unlistedByte :=
      readCell_of_lt fun y hy => Nat.lt_of_le_of_lt ha (hlt y hy)
    unfold writeCell
    by_cases h₁ : a < k
    · rw [if_pos h₁]
      by_cases hv : v = unlistedByte
      · by_cases hb : b = a
        · subst hb; rw [if_pos hv, if_pos rfl, readCell, if_neg (by omega), hread b (by omega), hv]
        · rw [if_pos hv, if_neg hb]
      · rw [if_neg hv, readCell]
        by_cases hb : b = a
        · rw [if_pos hb.symm, if_pos hb]
        · rw [if_neg (Ne.symm hb), if_neg hb]
    · rw [if_neg h₁]
      by_cases h₂ : a = k
      · subst h₂
        by_cases hv : v = unlistedByte
        · rw [if_pos rfl, if_pos hv]
          by_cases hb : b = a
          · rw [if_pos hb, hb, hread a le_rfl, hv]
          · rw [if_neg hb, readCell, if_neg (Ne.symm hb)]
        · rw [if_pos rfl, if_neg hv, readCell, readCell]
          by_cases hb : b = a
          · rw [if_pos hb.symm, if_pos hb]
          · rw [if_neg (Ne.symm hb), if_neg hb, if_neg (Ne.symm hb)]
      · rw [if_neg h₂, readCell, ih hm, readCell]
        by_cases hb : k = b
        · rw [if_pos hb, if_pos hb, if_neg (by omega)]
        · rw [if_neg hb, if_neg hb]

/-- A write lists no address but those listed before and its own. -/
theorem mem_writeCell {m : Memory} {a : Nat} {v : Byte} {x : Host.Cell} (h : x ∈ writeCell m a v) :
    x ∈ m ∨ x.1 = a ∧ x.2 = v ∧ v ≠ unlistedByte := by
  induction m with
  | nil =>
    by_cases hv : v = unlistedByte
    · simp [writeCell, hv] at h
    · simp only [writeCell, if_neg hv, List.mem_singleton] at h
      exact .inr ⟨by rw [h], by rw [h], hv⟩
  | cons y m ih =>
    obtain ⟨k, u⟩ := y
    unfold writeCell at h
    split at h
    · split at h
      · exact .inl h
      · rcases List.mem_cons.mp h with h | h
        · exact .inr ⟨by rw [h], by rw [h], ‹_›⟩
        · exact .inl h
    · split at h
      · split at h
        · exact .inl (List.mem_cons_of_mem _ h)
        · rcases List.mem_cons.mp h with h | h
          · exact .inr ⟨by rw [h]; exact ‹a = k›.symm, by rw [h], ‹_›⟩
          · exact .inl (List.mem_cons_of_mem _ h)
      · rcases List.mem_cons.mp h with h | h
        · exact .inl (by rw [h]; exact List.mem_cons_self)
        · exact (ih h).imp_left (List.mem_cons_of_mem _)

/-- A write keeps the addresses strictly rising. -/
theorem pairwise_writeCell {m : Memory} (hm : m.Pairwise (fun x y => x.1 < y.1)) (a : Nat) (v : Byte) :
    (writeCell m a v).Pairwise (fun x y => x.1 < y.1) := by
  induction m with
  | nil => by_cases hv : v = unlistedByte <;> simp [writeCell, hv]
  | cons y m ih =>
    obtain ⟨k, u⟩ := y
    obtain ⟨hlt, hm'⟩ := List.pairwise_cons.mp hm
    unfold writeCell
    split
    · split
      · exact hm
      · refine List.pairwise_cons.mpr ⟨fun x hx => ?_, hm⟩
        rcases List.mem_cons.mp hx with rfl | hx
        · exact ‹a < k›
        · exact Nat.lt_trans ‹a < k› (hlt x hx)
    · split
      · split
        · exact hm'
        · exact List.pairwise_cons.mpr ⟨hlt, hm'⟩
      · refine List.pairwise_cons.mpr ⟨fun x hx => ?_, ih hm'⟩
        rcases mem_writeCell hx with hx | ⟨hx, -⟩
        · exact hlt x hx
        · rw [hx]; show k < a; omega

/-! ## Bytes and bits -/

/-- The empty list is the shadow RAM whose every byte is 0 (R95). -/
theorem wf_nil : Memory.wf [] := ⟨List.Pairwise.nil, by simp⟩

@[simp] theorem readByte_nil (a : Addr) : readByte [] a = 0 := rfl

@[simp] theorem bitAt_nil (l : Loc) : bitAt [] l = false := by simp [bitAt]

/-- Every write keeps the canonical form. -/
theorem writeByte_wf {m : Memory} (hm : m.wf) (a : Addr) (v : Byte) : (writeByte m a v).wf := by
  refine ⟨pairwise_writeCell hm.1 _ _, fun x hx => ?_⟩
  rcases mem_writeCell hx with hx | ⟨h₁, h₂, h₃⟩
  · exact hm.2 x hx
  · exact ⟨h₁ ▸ a.isLt, h₂ ▸ h₃⟩

/-- Read after write. -/
theorem readByte_writeByte {m : Memory} (hm : m.wf) (a b : Addr) (v : Byte) :
    readByte (writeByte m a v) b = if b = a then v else readByte m b := by
  simp only [readByte, writeByte, readCell_writeCell hm.1, BitVec.toNat_inj]

/-- The one byte that `SetBit` changes (R33). -/
theorem readByte_setBit {m : Memory} (hm : m.wf) (l : Loc) (a : Addr) :
    readByte (setBit m l) a = if a = l.addr then readByte m l.addr ||| (1#8 <<< l.bit.toNat) else readByte m a :=
  readByte_writeByte hm _ _ _

/-- `SetBit` keeps the canonical form. -/
theorem setBit_wf {m : Memory} (hm : m.wf) (l : Loc) : (setBit m l).wf := writeByte_wf hm _ _

/-- `SetBit` sets its bit and no other. -/
theorem bitAt_setBit {m : Memory} (hm : m.wf) (l l' : Loc) :
    bitAt (setBit m l) l' = (bitAt m l' || decide (l' = l)) := by
  obtain ⟨a, b⟩ := l
  obtain ⟨a', b'⟩ := l'
  simp only [bitAt, readByte_setBit hm, Loc.mk.injEq]
  by_cases h : a' = a
  · subst h
    have hb : b'.toNat < 8 := b'.isLt
    have hbit : (1#8 <<< b.toNat).getLsbD b'.toNat = decide (b' = b) := by
      revert b b'; decide
    simp [hbit]
  · simp [h]

/-- A wholly given shadow RAM is in canonical form. -/
theorem memoryOf_wf (f : Addr → Byte) : (memoryOf f).wf := by
  have (as : List Addr) (m : Memory) (hm : m.wf) : (as.foldl (fun m a => writeByte m a (f a)) m).wf := by
    induction as generalizing m with
    | nil => exact hm
    | cons a as ih => exact ih _ (writeByte_wf hm _ _)
  exact this _ _ wf_nil

/-- A wholly given shadow RAM has the given bytes. -/
theorem readByte_memoryOf (f : Addr → Byte) (a : Addr) : readByte (memoryOf f) a = f a := by
  have (as : List Addr) (m : Memory) (hm : m.wf) :
      readByte (as.foldl (fun m a => writeByte m a (f a)) m) a = if a ∈ as then f a else readByte m a := by
    induction as generalizing m with
    | nil => simp
    | cons b as ih =>
      rw [List.foldl_cons, ih _ (writeByte_wf hm _ _), readByte_writeByte hm]
      by_cases h : a = b <;> by_cases h' : a ∈ as <;> simp [h, h']
  have hall : ∀ a : Addr, a ∈ addrs := by decide
  rw [memoryOf, this _ _ wf_nil, if_pos (hall a)]

/-- What the two heads of equal canonical forms share. -/
theorem readCell_cons_self (a : Nat) (v : Byte) (m : Memory) : readCell ((a, v) :: m) a = v := by simp [readCell]

/-- Canonical forms with the same bytes are equal. -/
theorem Memory.ext_of_wf {m m' : Memory} (hm : m.wf) (hm' : m'.wf) (h : ∀ a, readByte m a = readByte m' a) :
    m = m' := by
  have hcell (a : Nat) (ha : a < 16) : readCell m a = readCell m' a := by
    have := h (BitVec.ofNat 4 a)
    simpa [readByte, BitVec.toNat_ofNat, Nat.mod_eq_of_lt ha] using this
  clear h
  induction m generalizing m' with
  | nil =>
    cases m' with
    | nil => rfl
    | cons y m' =>
      obtain ⟨b, w⟩ := y
      have := hm'.2 (b, w) (by simp)
      exact absurd (hcell b this.1).symm (by simpa [readCell] using this.2)
  | cons x m ih =>
    obtain ⟨a, v⟩ := x
    obtain ⟨hlt, hp⟩ := List.pairwise_cons.mp hm.1
    have hx := hm.2 (a, v) (by simp)
    cases m' with
    | nil => exact absurd (hcell a hx.1) (by simpa [readCell] using hx.2)
    | cons y m' =>
      obtain ⟨b, w⟩ := y
      obtain ⟨hlt', hp'⟩ := List.pairwise_cons.mp hm'.1
      have hy := hm'.2 (b, w) (by simp)
      have low : ∀ {k : Nat} {n : Memory} {j : Nat} {z : Byte}, (∀ q ∈ n, k < q.1) → j < k →
          readCell ((k, z) :: n) j = unlistedByte := fun hn hj => by
        rw [readCell, if_neg (by omega)]
        exact readCell_of_lt fun q hq => Nat.lt_trans hj (hn q hq)
      have hab : a = b := by
        rcases Nat.lt_trichotomy a b with hlt₁ | heq | hlt₁
        · have := hcell a hx.1
          rw [readCell_cons_self, low hlt' hlt₁] at this
          exact absurd this hx.2
        · exact heq
        · have := hcell b hy.1
          rw [readCell_cons_self, low hlt hlt₁] at this
          exact absurd this.symm hy.2
      subst hab
      have hvw : v = w := by simpa [readCell] using hcell a hx.1
      subst hvw
      congr 1
      refine ih ⟨hp, fun z hz => hm.2 z (by simp [hz])⟩ ⟨hp', fun z hz => hm'.2 z (by simp [hz])⟩ fun k hk => ?_
      by_cases hka : a = k
      · subst hka
        rw [readCell_of_lt hlt, readCell_of_lt hlt']
      · simpa [readCell, hka] using hcell k hk

/-- Bytes are equal when their bits are. -/
theorem readByte_eq_of_bitAt {m m' : Memory} (a : Addr) (h : ∀ b, bitAt m ⟨a, b⟩ = bitAt m' ⟨a, b⟩) :
    readByte m a = readByte m' a := by
  refine BitVec.eq_of_getLsbD_eq fun i hi => ?_
  have := h (BitVec.ofNat 3 i)
  simpa [bitAt, BitVec.toNat_ofNat, Nat.mod_eq_of_lt hi] using this

/-- Canonical forms with the same bits are equal. -/
theorem Memory.ext_of_bits {m m' : Memory} (hm : m.wf) (hm' : m'.wf) (h : ∀ l, bitAt m l = bitAt m' l) : m = m' :=
  Memory.ext_of_wf hm hm' fun a => readByte_eq_of_bitAt a fun b => h ⟨a, b⟩

end Sys2Proof.Machine
end

