-- ==== Sys2Proof/Laws/Operands.lean ====
section
/-! SUPPORT. The index function and the mapper: which bytes are the modifiers, and that the mapper sends different
(segment, digit) pairs to different locations of the segment region. -/

namespace Sys2Proof.Machine

/-- The decimal index is the index of `.` alone (R65). -/
theorem idx_eq_decimal : ∀ c : Byte, idx c = idxDecimal ↔ c = 0x2E#8 := by decide

/-- The colon index is the index of `:` alone (R65). -/
theorem idx_eq_colon : ∀ c : Byte, idx c = idxColon ↔ c = 0x3A#8 := by decide

/-- The modifiers are `.` and `:` (R91). -/
theorem isModifier_iff (c : Byte) : isModifier c = true ↔ c = 0x2E#8 ∨ c = 0x3A#8 := by
  simp [isModifier, idx_eq_decimal, idx_eq_colon]

/-- The mapper stays inside the segment region (R79). -/
theorem locate_inRegion : ∀ (g : Fin 14) (d : BitVec 2), (locate g d).inRegion = true := by decide

/-- The segment list holds every segment number (R81). -/
theorem mem_segments : ∀ g : Fin 14, g ∈ segments := by decide

end Sys2Proof.Machine
end

