-- ==== Sys2Proof/Laws/PerInstr.lean ====
section
/-! SUPPORT. What holds of each command as syntax: the family OpcodeRow says that the command's word has the match and
the mask that the opcode map of spec/30_encoding.md R51 gives its mnemonic. -/

namespace Sys2Proof.Laws.OpcodeRow

/-- The command's word is selected by the row of R51 that carries its mnemonic. -/
def Statement (i : Instr) : Prop :=
  ∃ r ∈ opcodeTable, r.mnemonic = i.mnemonic ∧ encode i &&& r.mask = r.pattern

theorem nop : Statement .nop := ⟨⟨"NOP", 0x0000, 0xFFFF⟩, by decide, rfl, by decide⟩

theorem index (c : Byte) : Statement (.index c) :=
  ⟨⟨"INDEX", 0x1000, 0xFF00⟩, by decide, rfl, by revert c; decide⟩

theorem lookup (n : BitVec 7) : Statement (.lookup n) :=
  ⟨⟨"LOOKUP", 0x2000, 0xFF80⟩, by decide, rfl, by revert n; decide⟩

theorem locate (g : BitVec 4) (d : BitVec 2) : Statement (.locate g d) :=
  ⟨⟨"LOCATE", 0x3000, 0xFFC0⟩, by decide, rfl, by revert g d; decide⟩

theorem renderAt (c : Byte) (d : BitVec 2) : Statement (.renderAt c d) :=
  ⟨⟨"RENDER_AT", 0x4000, 0xFC00⟩, by decide, rfl, by revert c d; decide⟩

theorem putc (c : Byte) : Statement (.putc c) :=
  ⟨⟨"PUTC", 0x5000, 0xFF00⟩, by decide, rfl, by revert c; decide⟩

theorem resetBuf : Statement .resetBuf := ⟨⟨"RESET_BUF", 0x6000, 0xFFFF⟩, by decide, rfl, by decide⟩

theorem clear : Statement .clear := ⟨⟨"CLEAR", 0x7000, 0xFFFF⟩, by decide, rfl, by decide⟩

theorem read (a : Addr) : Statement (.read a) :=
  ⟨⟨"READ", 0x8000, 0xFFF0⟩, by decide, rfl, by revert a; decide⟩

theorem sync : Statement .sync := ⟨⟨"SYNC", 0x9000, 0xFFFF⟩, by decide, rfl, by decide⟩

end Sys2Proof.Laws.OpcodeRow
end

