-- ==== Sys2Proof/Laws/Render.lean ====
section
/-! SUPPORT. The render datapath: which bits it sets, and that it keeps the canonical form. -/

namespace Sys2Proof.Machine

/-- The loop over any list of segments sets the bits of the segments set in the mask, and no other (R84). -/
theorem renderLoop_spec (mask : SegMask) (d : BitVec 2) (gs : List (Fin 14)) {m : Memory} (hm : m.wf) :
    let m' := gs.foldl (fun m g => if mask.getLsbD g.val then setBit m (locate g d) else m) m
    m'.wf ∧ ∀ l, bitAt m' l = true ↔
      bitAt m l = true ∨ ∃ g ∈ gs, mask.getLsbD g.val = true ∧ locate g d = l := by
  induction gs generalizing m with
  | nil => exact ⟨hm, fun l => by simp⟩
  | cons g gs ih =>
    by_cases hg : mask.getLsbD g.val = true
    · obtain ⟨hwf, hbits⟩ := ih (setBit_wf hm (locate g d))
      refine ⟨by simp only [List.foldl_cons, if_pos hg]; exact hwf, fun l => ?_⟩
      have := hbits l
      simp only [bitAt_setBit hm, Bool.or_eq_true, decide_eq_true_eq] at this
      simp only [List.foldl_cons, hg, if_true, this, List.mem_cons, exists_eq_or_imp, true_and, eq_comm (a := l)]
      tauto
    · obtain ⟨hwf, hbits⟩ := ih hm
      refine ⟨by simp only [List.foldl_cons, if_neg hg]; exact hwf, fun l => ?_⟩
      have := hbits l
      simp only [List.foldl_cons, hg, if_false, this, List.mem_cons, exists_eq_or_imp, false_and, false_or, Bool.false_eq_true]

/-- A render of a mask keeps the canonical form. -/
theorem renderMask_wf (mask : SegMask) (d : BitVec 2) {m : Memory} (hm : m.wf) : (renderMask mask d m).wf :=
  (renderLoop_spec mask d segments hm).1

/-- A render of a mask ORs its image in (R84). -/
theorem bitAt_renderMask (mask : SegMask) (d : BitVec 2) {m : Memory} (hm : m.wf) (l : Loc) :
    bitAt (renderMask mask d m) l = true ↔ bitAt m l = true ∨ inImage mask d l := by
  rw [renderMask, (renderLoop_spec mask d segments hm).2 l]
  simp [mem_segments, inImage]

/-- A render keeps the canonical form. -/
theorem renderInto_wf (cfg : Config) (c : Byte) (d : BitVec 2) {m : Memory} (hm : m.wf) : (renderInto cfg c d m).wf := by
  unfold renderInto
  split
  · exact setBit_wf hm _
  · split
    · exact setBit_wf hm _
    · exact renderMask_wf _ _ hm

/-- A render sets the bits that its character lights, and no other (R82 to R85). -/
theorem bitAt_renderInto (cfg : Config) (c : Byte) (d : BitVec 2) {m : Memory} (hm : m.wf) (l : Loc) :
    bitAt (renderInto cfg c d m) l = true ↔ bitAt m l = true ∨ lights cfg c d l := by
  unfold renderInto lights
  simp only [idx_eq_decimal, idx_eq_colon]
  split
  · simp [setDecFlag, bitAt_setBit hm]
  · split
    · simp [setColFlag, bitAt_setBit hm]
    · exact bitAt_renderMask _ _ hm l

/-- A modifier's render does not use its digit (R86). -/
theorem renderInto_modifier {cfg : Config} {c : Byte} (h : isModifier c = true) (d d' : BitVec 2) (m : Memory) :
    renderInto cfg c d m = renderInto cfg c d' m := by
  unfold renderInto
  split
  · rfl
  · split
    · rfl
    · simp_all [isModifier]

end Sys2Proof.Machine
end

