-- ==== Sys2Proof/Laws/Run.lean ====
section
/-! SUPPORT. Runs of the machine: one command of a run, and a run cut in two. -/

namespace Sys2Proof.Machine

variable {s t : State}

/-- A run of one command more begins with a step. -/
theorem run_succ (k : Nat) (h : step s = .next t) : Host.Core.run core (k + 1) s = Host.Core.run core k t := by
  have h : core.step s = .next t := h
  simp only [Host.Core.run, h]

/-- A run ends where a step faults. -/
theorem run_succ_fault {r : Fault} (k : Nat) (h : step s = .fault r) : Host.Core.run core (k + 1) s = .fault r := by
  have h : core.step s = .fault r := h
  simp only [Host.Core.run, h]

/-- A run that presents the word of a well-read command runs it and goes on. -/
theorem run_command {w : Word} {rest : List HostInput} {i : Instr} (k : Nat) (hm : s.mark = none)
    (hp : s.port = .command w :: rest) (hd : decode w = .cmd i) (hx : exec i { s with port := rest } = .next t) :
    Host.Core.run core (k + 1) s = Host.Core.run core k t :=
  run_succ k (by simp only [step, takeInput, hp, runWord, hm, hd]; simpa only [hm] using hx)

/-- A run of `j + k` steps is a run of `j` and then one of `k`. -/
theorem run_add (j k : Nat) (h : Host.Core.run core j s = .next t) :
    Host.Core.run core (j + k) s = Host.Core.run core k t := by
  induction j generalizing s with
  | zero => rw [Nat.zero_add]; exact congrArg _ (Host.Outcome.next.inj h)
  | succ j ih =>
    rw [Nat.succ_add]
    rcases hs : core.step s with u | r | r <;> simp only [Host.Core.run, hs] at h ⊢
    · exact ih h
    · cases h
    · cases h

end Sys2Proof.Machine
end

