-- ==== Sys2Proof/Tests/Slice0.lean ====
section
/-! SUPPORT. The model's own tests, their expected results taken from spec/95_test_vectors.md, spec/30_encoding.md and
the corner cases of the command rules; and, for each statement with hypotheses, a named theorem that a concrete state
and operands meet them. -/

namespace Sys2Proof.Tests

open Sys2Proof.Machine

/-! ## The example configuration and small states -/

/-- The configuration `EX` of 95_test_vectors.md, with the glyphs that its vector R-9 assumes. -/
def exConfig : Config where
  segTable := (((Vector.replicate 96 (0 : SegMask)).set 95 0x3FFF).set 33 0x0001).set 34 0x0080
  decLoc := ⟨3, 0⟩
  colLoc := ⟨1, 0⟩

/-- After reset, with `EX`. -/
def atReset : State := { State.reset with config := exConfig }

/-- `Cleared` (R133), with `EX`. -/
def cleared : State := { atReset with init := true }

/-- All four cells filled (vector P-5). -/
def full : State :=
  { cleared with shadow := memoryOf fun a => if a.toNat % 2 = 0 ∧ a.toNat ≤ 12 then 0xFF else 0, digitPos := 4 }

/-- The next state, or the state after reset where there is none. -/
def next : Result → State
  | .next s => s
  | .fault _ => State.reset
  | .refused _ => State.reset

/-- The sixteen shadow bytes. -/
def bytes (s : State) : List Byte := addrs.map (readByte s.shadow)

/-- One byte value in the even addresses 0..12. -/
def evens (v : Byte) : List Byte := [v, 0, v, 0, v, 0, v, 0, v, 0, v, 0, v, 0, 0, 0]

/-! ## Well-formedness (R54): an ill-formed term for each check -/

theorem test_wf_lookup_96 : (Instr.lookup 96).wf = false := by decide
theorem test_wf_lookup_127 : (Instr.lookup 127).wf = false := by decide
theorem test_wf_locate_14 : (Instr.locate 14 0).wf = false := by decide
theorem test_wf_locate_15 : (Instr.locate 15 3).wf = false := by decide
theorem test_config_flag_in_region : ¬ ({ exConfig with decLoc := ⟨2, 4⟩ } : Config).wf := by decide
theorem test_config_flags_equal : ¬ ({ exConfig with decLoc := ⟨1, 0⟩ } : Config).wf := by decide
theorem test_config_space_not_blank : ¬ ({ exConfig with segTable := exConfig.segTable.set 0 1 } : Config).wf := by decide
theorem test_config_sentinel : ¬ ({ exConfig with segTable := exConfig.segTable.set 95 1 } : Config).wf := by decide

/-! ## Decoding words written out from R49 and R51 (and the table of 95_test_vectors.md 2.1) -/

theorem test_decode_nop : decode 0b0000000000000000 = .cmd .nop := by decide
theorem test_decode_index : decode 0b0001000011111111 = .cmd (.index 0xFF) := by decide
theorem test_decode_lookup : decode 0b0010000001011111 = .cmd (.lookup 95) := by decide
theorem test_decode_locate : decode 0b0011000000110111 = .cmd (.locate 13 3) := by decide
theorem test_decode_renderAt : decode 0b0100001100000000 = .cmd (.renderAt 0x00 3) := by decide
theorem test_decode_putc : decode 0b0101000000101110 = .cmd (.putc 0x2E) := by decide
theorem test_decode_resetBuf : decode 0b0110000000000000 = .cmd .resetBuf := by decide
theorem test_decode_clear : decode 0b0111000000000000 = .cmd .clear := by decide
theorem test_decode_read : decode 0b1000000000001111 = .cmd (.read 15) := by decide
theorem test_decode_sync : decode 0b1001000000000000 = .cmd .sync := by decide

theorem test_decode_reserved_bits :
    [0x0001, 0x1100, 0x2080, 0x20E0, 0x3040, 0x4400, 0x5100, 0x6001, 0x7800, 0x8010, 0x9001].all
      (fun w => decode w == .refuse .refRsvdBits) := by decide
theorem test_decode_index_range : [0x2060, 0x207F].all (fun w => decode w == .refuse .refIndex) := by decide
theorem test_decode_segment_range : [0x3038, 0x303C].all (fun w => decode w == .refuse .refSegment) := by decide
theorem test_decode_opcode : [0xA000, 0xF123, 0xFFFF].all (fun w => decode w == .refuse .refOpcode) := by decide
theorem test_decodeTableWord : decodeTableWord 16 0x427F = some (.renderAt 0x7F 2) := by decide

/-! ## One step of each command (95_test_vectors.md 2.2 to 2.7) -/

theorem test_fetch_runs : (next (step (atReset.withFetchWord 16 0x1041))).outputs = [.value 0x0021] := by decide
theorem test_fetch_opcode : (next (step (atReset.withFetchWord 16 0xA000))).mark = some (.refuse .refOpcode 0xA000) := by
  decide
theorem test_index : [0x00, 0x1F, 0x20, 0x21, 0x2E, 0x3A, 0x41, 0x7E, 0x7F, 0x80, 0xFF].map
    (fun c => (next (exec (.index c) atReset)).outputs) =
  [0x5F, 0x5F, 0, 1, 0xE, 0x1A, 0x21, 0x5E, 0x5F, 0x5F, 0x5F].map (fun v => [.value v]) := by decide
theorem test_lookup : (next (exec (.lookup 95) atReset)).outputs = [.value 0x3FFF] := by decide
theorem test_lookup_refused : (next (exec (.lookup 96) atReset)).mark = some (.refuse .refIndex 0x2060) := by decide
theorem test_locate_override :
    [Instr.locate 7 0, .locate 8 0, .locate 6 3, .locate 13 3].map (fun i => (next (exec i atReset)).outputs) =
      [0x14, 0x04, 0x63, 0x67].map (fun v => [.value v]) := by decide
theorem test_locate_refused : (next (exec (.locate 14 0) atReset)).mark = some (.refuse .refSegment 0x3038) := by decide
theorem test_renderAt_unknown : bytes (next (exec (.renderAt 0x7F 2) cleared)) = evens 0x44 := by decide
theorem test_renderAt_union :
    bytes (next (exec (.renderAt 0x42 0) (next (exec (.renderAt 0x41 0) cleared)))) =
      [0x01, 0, 0x10, 0, 0, 0, 0, 0, 0, 0, 0, 0, 0, 0, 0, 0] := by decide
theorem test_putc_advances :
    let t := next (exec (.putc 0x80) { cleared with digitPos := 1 })
    bytes t = evens 0x22 ∧ t.digitPos = 2 := by decide
theorem test_putc_decimal_when_full :
    let t := next (exec (.putc 0x2E) full)
    t.decFlag = true ∧ t.colFlag = false ∧ t.digitPos = 4 ∧ t.mark = none := by decide
theorem test_nop : (next (exec .nop atReset)).init = false := by decide
theorem test_resetBuf : (next (exec .resetBuf full)).Cleared := by decide
theorem test_clear : (next (exec .clear full)).outputs = [.frame (Vector.replicate 17 0)] := by decide
theorem test_read : (next (exec (.read 12) full)).outputs = [.value 0x00FF] := by decide
theorem test_read_unused : (next (exec (.read 15) full)).outputs = [.value 0x0000] := by decide
theorem test_sync : (next (exec .sync (next (exec (.putc 0x7F) cleared)))).outputs =
    [.none, .frame #v[0, 0x11, 0, 0x11, 0, 0x11, 0, 0x11, 0, 0x11, 0, 0x11, 0, 0x11, 0, 0, 0]] := by decide
theorem test_sync_uninit : (next (exec .sync atReset)).mark = some (.fltUninit 0x9000) ∧
    (next (exec .sync atReset)).outputs = [] := by decide
theorem test_putc_full : (next (exec (.putc 0x20) full)).mark = some (.fltDigitOvf 0x5020 4) := by decide
theorem test_putc_uninit_first : (next (exec (.putc 0x2E) atReset)).mark = some (.fltUninit 0x502E) := by decide
theorem test_reset_clears_mark :
    (next (step { full with mark := some (.fltUninit 0x9000), port := [.reset] })).mark = none := rfl

/-! ## Ends of runs (R130, R132) -/

theorem test_ends_well :
    cleared.EndsWell ∧ { cleared with port := [.reset] }.EndsWell ∧ ¬ { cleared with port := [.command 0x0000] }.EndsWell ∧
      ¬ { cleared with mark := some (.fltUninit 0x9000) }.EndsWell := by decide
theorem test_observation :
    (next (exec (.read 12) (next (exec .nop full)))).observation = ⟨[.value 0x00FF], full.shadow, 4, true⟩ := by decide

/-! ## The assembler and `WRITE` (R57 to R59, R101) -/

theorem test_asm_spellings :
    assemble ["  PUTC ' ' ; digit 1, blank".toList, "PUTC ';'".toList, "LOCATE 13, 0x3".toList, "; nothing".toList,
      "READ 0xf".toList] = some [0x5020, 0x503B, 0x3037, 0x800F] := by decide
theorem test_asm_digits :
    "0189afAFgG/:@`".toList.map digitVal =
      [some 0, some 1, some 8, some 9, some 10, some 15, some 10, some 15] ++ List.replicate 6 none := by decide
theorem test_asm_strings :
    ["WRITE \"AB".toList, "WRITE \"A\"B\"".toList, "WRITE 'A'".toList].map assembleLine = [none, none, none] := by decide
theorem test_asm_rejects :
    ["PUTC 256", "LOCATE O, 0", "LOCATE A, 4", "READ 16", "NOP 1", "nop", "PUTC", "RENDER_AT 'A' 1"].all
      (fun l => assembleLine l.toList == none) := by decide
theorem test_asm_write :
    assembleLine "WRITE \"A.BCD\"".toList = some [0x6000, 0x5041, 0x502E, 0x5042, 0x5043, 0x9000] := by decide
theorem test_asm_write_list :
    assembleLine "WRITE [0x01, '.', 3]".toList = some [0x6000, 0x5001, 0x502E, 0x5003, 0x9000] := by decide
theorem test_write_result_toolong : writeResult ("TOOLONG".toList.map charByte) = 4 := by decide

/-! ## Witnesses: states and operands that meet the hypotheses of the statements -/

/-- The states of the witnesses: `cleared` with one word presented. -/
def presenting (w : Word) (s : State) : State := { s with port := [.command w] }

theorem witness_DecodeOfEncode : (Instr.lookup 95).wf = true ∧ (Instr.locate 13 3).wf = true := by decide
theorem witness_EncodeOfDecode : decode 0x205F = .cmd (.lookup 95) := by decide
theorem witness_OpcodeMap_selected :
    ⟨"LOOKUP", 0x2000, 0xFF80⟩ ∈ opcodeTable ∧ (0x205F : Word) &&& 0xFF80 = 0x2000 := by decide
theorem witness_OpcodeMap_out_of_range :
    (0x2060 : Word) &&& 0xFF80 = 0x2000 ∧ ⟨"LOCATE", 0x3000, 0xFFC0⟩ ∈ opcodeTable ∧
      (0x3038 : Word) &&& 0xFFC0 = 0x3000 := by decide
theorem witness_FieldsAreReadInPlace :
    decode 0x10FF = .cmd (.index 0xFF) ∧ decode 0x205F = .cmd (.lookup 95) ∧ decode 0x3037 = .cmd (.locate 13 3) ∧
      decode 0x43FF = .cmd (.renderAt 0xFF 3) ∧ decode 0x50FF = .cmd (.putc 0xFF) ∧
      decode 0x800F = .cmd (.read 15) := by decide
theorem witness_UnassignedOpcode :
    (presenting 0xA000 cleared).mark = none ∧ (presenting 0xA000 cleared).port = [.command 0xA000] ∧
      0xA ≤ (0xA000 : Word).toNat / 4096 := by decide
theorem witness_ReservedBits :
    (presenting 0x9001 cleared).mark = none ∧ ⟨"SYNC", 0x9000, 0xFFFF⟩ ∈ opcodeTable ∧
      (0x9000 : Word).toNat / 4096 = (0x9001 : Word).toNat / 4096 ∧ (0x9001 : Word) &&& 0xFFFF ≠ 0x9000 := by decide
theorem witness_ValueRanges_index :
    (presenting 0x2060 cleared).mark = none ∧
      (presenting 0x2060 cleared).port = [.command (0x2000 ||| (96 : BitVec 7).setWidth 16)] ∧
      96 ≤ (96 : BitVec 7).toNat := by decide
theorem witness_ValueRanges_segment :
    (presenting 0x3038 cleared).mark = none ∧
      (presenting 0x3038 cleared).port =
        [.command (0x3000 ||| ((14 : BitVec 4).setWidth 16 <<< 2) ||| (0 : BitVec 2).setWidth 16)] ∧
      14 ≤ (14 : BitVec 4).toNat ∧ (13 : BitVec 4).toNat < 14 := by decide
theorem witness_Assembler : assembleLine "PUTC '.'".toList = some [0x502E] := by decide
theorem witness_StepRunsTheDecodedCommand :
    (presenting 0x507F cleared).mark = none ∧ (presenting 0x507F cleared).port = [.command 0x507F] ∧
      decode 0x507F = .cmd (.putc 0x7F) := by decide
theorem witness_EmptyPort : cleared.port = [] := rfl
theorem witness_StepReadsOnlyTheHead :
    (presenting 0x507F cleared).port = .command 0x507F :: [] ∧
      step (presenting 0x507F cleared) = .next (next (step (presenting 0x507F cleared))) := ⟨rfl, rfl⟩
theorem witness_OnlyTheListedCodes :
    (presenting 0x5020 full).mark = none ∧ (presenting 0x5020 full).port = [.command 0x5020] ∧
      (next (step (presenting 0x5020 full))).mark = some (.fltDigitOvf 0x5020 4) := by decide
theorem witness_OnlyTheListedCodes_next :
    step (presenting 0x5020 full) = .next (next (step (presenting 0x5020 full))) := rfl
theorem witness_EveryStopIsPrecise :
    (presenting 0x9000 atReset).mark = none ∧ (next (step (presenting 0x9000 atReset))).mark ≠ none := by decide
theorem witness_EveryStopIsPrecise_next :
    step (presenting 0x9000 atReset) = .next (next (step (presenting 0x9000 atReset))) := rfl
/-- A state of a run that has ended. -/
def ended : State := { presenting 0x0000 cleared with mark := some (.fltUninit 0x9000) }
theorem witness_MarkIsSticky_command :
    ended.mark = some (.fltUninit 0x9000) ∧ ended.port = [.command 0x0000] := by decide
theorem witness_MarkIsSticky_next :
    { ended with port := [] }.mark ≠ none ∧ step { ended with port := [] } = .next { ended with port := [] } :=
  ⟨by decide, rfl⟩
theorem witness_MarkIsSticky_reset : ({ ended with port := [.reset] } : State).port = .reset :: [] := rfl
theorem witness_ResetStartsARun : ({ full with port := [.reset] } : State).port = .reset :: [] := rfl
theorem witness_IllFormed_decimal : ({ exConfig with decLoc := ⟨0, 0⟩ } : Config).decLoc.inRegion = true := by decide
theorem witness_IllFormed_colon : ({ exConfig with colLoc := ⟨12, 7⟩ } : Config).colLoc.inRegion = true := by decide
theorem witness_IllFormed_equal :
    ({ exConfig with decLoc := ⟨1, 0⟩ } : Config).decLoc = ({ exConfig with decLoc := ⟨1, 0⟩ } : Config).colLoc := rfl
theorem witness_WellFormedConfig : exConfig.wf := by decide
theorem witness_NoStepChangesTheConfiguration :
    step (presenting 0x6000 full) = .next (next (step (presenting 0x6000 full))) := rfl
theorem witness_IndexFunction :
    (0x21 : Byte) ≤ 0x21 ∧ (0x21 : Byte) ≤ 0x7E ∧ (0x1F : Byte) < 0x20 ∧ (0x7E : Byte) < 0x7F := by decide
theorem witness_KnownMasks : exConfig.wf ∧ ((0x1F : Byte) ≤ 0x1F ∨ (0x7F : Byte) ≤ 0x1F) ∧ (0x7F : Byte) ≤ 0x7F := by decide
theorem witness_LookupResult : 96 ≤ (96 : BitVec 7).toNat ∧ cleared.config.wf := by decide
theorem witness_ModifierEntries :
    sameButModifierEntries cleared.config { exConfig with segTable := (exConfig.segTable.set 14 5).set 26 9 } ∧
      Instr.putc 0x2E ≠ .lookup 14 ∧ Instr.putc 0x2E ≠ .lookup 26 := by decide
theorem witness_ModifierEntries_next : exec (.putc 0x2E) cleared = .next (next (exec (.putc 0x2E) cleared)) := rfl
theorem witness_LocateBijection :
    locate 0 0 = locate 0 0 ∧ (⟨12, 7⟩ : Loc).addr.toNat % 2 = 0 ∧ (⟨12, 7⟩ : Loc).addr.toNat ≤ 12 ∧
      (1 : Fin 14) ≠ 7 ∧ (locate 1 0).addr = (locate 7 0).addr := by decide
theorem witness_LocateResult : 14 ≤ (14 : BitVec 4).toNat := by decide
theorem witness_RenderAtResult : full.init = true ∧ full.shadow.wf ∧ atReset.init = false := by decide
theorem witness_Putc_modifier : full.init = true ∧ full.shadow.wf := by decide
theorem witness_Putc_ordinary :
    (0x41 : Byte) ≠ 0x2E ∧ (0x41 : Byte) ≠ 0x3A ∧ cleared.init = true ∧
      ({ cleared with digitPos := 3 } : State).digitPos.toNat < 4 ∧ cleared.shadow.wf := by decide
theorem witness_Putc_full :
    (0x20 : Byte) ≠ 0x2E ∧ (0x20 : Byte) ≠ 0x3A ∧ full.init = true ∧ 4 ≤ full.digitPos.toNat := by decide
theorem witness_SpaceAndUnknown : exConfig.wf ∧ full.shadow.wf ∧ (0x7F : Byte) ≤ 0x7F := by decide
theorem witness_RendersAccumulate : cleared.init = true ∧ cleared.shadow.wf := by decide
/-- `cleared` after a first render. -/
def rendered : State := next (exec (.renderAt 0x41 0) cleared)
theorem witness_RendersAccumulate_next :
    exec (.renderAt 0x41 0) cleared = .next rendered ∧
      exec (.renderAt 0x42 0) rendered = .next (next (exec (.renderAt 0x42 0) rendered)) := ⟨rfl, rfl⟩
theorem witness_RenderAtIsIdempotent :
    exec (.renderAt 0x41 0) cleared = .next rendered ∧
      exec (.renderAt 0x41 0) rendered = .next (next (exec (.renderAt 0x41 0) rendered)) := ⟨rfl, rfl⟩
theorem witness_PutcIsNotIdempotent : exec (.putc 0x41) cleared = .next (next (exec (.putc 0x41) cleared)) := rfl
theorem witness_ModifierReadsNeither : exec (.renderAt 0x3A 3) full = .next (next (exec (.renderAt 0x3A 3) full)) := rfl
theorem witness_Flags : full.config.wf ∧ full.shadow.wf ∧ (next (exec (.putc 0x3A) full)).mark = none := by decide
theorem witness_Flags_next : exec (.putc 0x3A) full = .next (next (exec (.putc 0x3A) full)) := rfl
theorem witness_cleared_Inv : cleared.Inv := ⟨by decide, by decide, fun _ l _ _ _ => bitAt_nil l⟩
theorem witness_ReadResult :
    full.init = true ∧ atReset.init = false ∧ (14 : Addr).toNat ≥ 14 ∧ (5 : Addr).toNat % 2 = 1 ∧
      cleared.config.decLoc.addr ≠ 5 ∧ cleared.config.colLoc.addr ≠ 5 := by decide
theorem witness_SyncResult : full.init = true ∧ atReset.init = false := by decide
theorem witness_KindOfOutput :
    full.mark = none ∧ (next (exec .clear full)).mark = none ∧ (next (exec (.read 3) full)).mark = none := by decide
theorem witness_KindOfOutput_next : exec .clear full = .next (next (exec .clear full)) := rfl
theorem witness_OutputsAreNeverRead : exec .sync full = .next (next (exec .sync full)) := rfl
theorem witness_ReadsHaveNoSideEffect :
    exec (.read 4) full = .next (next (exec (.read 4) full)) ∧ (next (exec (.read 4) full)).mark = none ∧
      exec (.read 4) (next (exec (.read 4) full)) = .next (next (exec (.read 4) (next (exec (.read 4) full)))) :=
  ⟨rfl, rfl, rfl⟩
theorem witness_Write : atReset.mark = none ∧ (writeExpand (List.replicate 9 0x2E)).length = 6 := by decide
theorem witness_EveryRunEnds_well :
    { full with port := [.command 0x0000, .reset] }.mark = none ∧
      (next (step { full with port := [.command 0x0000, .reset] })).EndsWell := by decide
theorem witness_EveryRunEnds_unsuccessfully :
    (presenting 0x5020 full).mark = none ∧ (next (step (presenting 0x5020 full))).EndsUnsuccessfully := by decide
theorem witness_ShadowChanges : full.shadow.wf ∧ exec .resetBuf full = .next (next (exec .resetBuf full)) :=
  ⟨by decide, rfl⟩
theorem witness_ShadowChanges_render :
    bitAt rendered.shadow ⟨0, 0⟩ = true ∧ bitAt cleared.shadow ⟨0, 0⟩ = false := by decide
theorem witness_DigitPosition :
    exec (.putc 0x41) { cleared with digitPos := 3 } = .next (next (exec (.putc 0x41) { cleared with digitPos := 3 })) ∧
      (next (exec (.putc 0x41) { cleared with digitPos := 3 })).mark = none := ⟨rfl, rfl⟩
theorem witness_Init : exec .clear atReset = .next (next (exec .clear atReset)) ∧ atReset.init = false := ⟨rfl, rfl⟩
theorem witness_EveryStepKeepsTheInvariant :
    { cleared with port := [.command 0x507F] }.Inv ∧
      step { cleared with port := [.command 0x507F] } =
        .next (next (step { cleared with port := [.command 0x507F] })) :=
  ⟨⟨by decide, by decide, fun _ l _ _ _ => bitAt_nil l⟩, rfl⟩
theorem witness_Launch : launch exConfig = .next atReset := if_pos witness_WellFormedConfig
theorem witness_SameButUnset : SameButUnset State.reset { State.reset with shadow := [(3, 7)], digitPos := 5 } :=
  ⟨rfl, rfl, rfl, rfl, rfl, rfl, nofun, nofun⟩

end Sys2Proof.Tests
end

section
/-! SUPPORT and O21. The configurations are open where R7 leaves them open: from a well-formed configuration its
choices are read back, so `Config.ofChoices` gives every one of them, and `launch` admits every one of them. -/

namespace Sys2Proof

/-! ## Reading the choices of a configuration back (log entry 2) -/

/-- The glyphs of a configuration: its table entries, and 0 past the table, where `Config.tableOf` never looks. -/
def Config.glyphs (c : Config) (n : Nat) : SegMask := c.segTable[n]?.getD 0

theorem Config.glyphs_of_lt (c : Config) {n : Nat} (h : n < 96) : c.glyphs n = c.segTable[n] := by
  simp [Config.glyphs, h]

theorem Config.tableOf_getElem (glyph : Nat → SegMask) (i : Fin 96) :
    (Config.tableOf glyph)[i] =
      if i = idxSpace then 0x0000 else if i = idxUnknown then 0x3FFF else glyph i.val := by
  simp [Config.tableOf]

/-- A table with the two fixed entries of R67 is rebuilt from its glyphs. -/
theorem Config.tableOf_glyphs {c : Config} (hspace : c.segTable[idxSpace] = 0x0000)
    (hunknown : c.segTable[idxUnknown] = 0x3FFF) : Config.tableOf c.glyphs = c.segTable := by
  have entry (i : Fin 96) : (Config.tableOf c.glyphs)[i] = c.segTable[i] := by
    rw [Config.tableOf_getElem]
    split_ifs with hi hi'
    · rw [hi, hspace]
    · rw [hi', hunknown]
    · exact c.glyphs_of_lt i.isLt
  exact Vector.ext fun n hn => entry ⟨n, hn⟩

/-- A location number other than `d` is one of the 71 that the colon flag may pick. -/
theorem Config.exists_colPick {d m : Nat} (hd : d < 72) (hm : m < 72) (hne : m ≠ d) :
    ∃ e < 71, (if e < d then e else e + 1) = m := by
  rcases Nat.lt_or_gt_of_ne hne with h | h
  · exact ⟨m, by omega, if_pos h⟩
  · exact ⟨m - 1, by omega, by rw [if_neg (by omega)]; omega⟩

/-- Two different locations outside the segment region are free locations `d` and, among the others, `e` (R40). -/
theorem Config.exists_picks {l m : Loc} (hl : l.inRegion = false) (hm : m.inRegion = false) (hne : l ≠ m) :
    ∃ d < 72, ∃ e < 71, Config.freeLoc d = l ∧ Config.freeLoc (if e < d then e else e + 1) = m := by
  obtain ⟨d, hd, rfl⟩ := Config.freeLoc_surjective l hl
  obtain ⟨n, hn, rfl⟩ := Config.freeLoc_surjective m hm
  obtain ⟨e, he, rfl⟩ := Config.exists_colPick hd hn fun h => hne (h ▸ rfl)
  exact ⟨d, hd, e, he, rfl, rfl⟩

/-- The converse of `Config.ofChoices_wf`: no well-formed configuration is shut out (R133). -/
theorem Config.wf.exists_ofChoices {c : Config} (h : c.wf) :
    ∃ (glyph : Nat → SegMask) (d e : Nat), d < 72 ∧ e < 71 ∧ Config.ofChoices glyph d e = c := by
  obtain ⟨hspace, hunknown, hdec, hcol, hne⟩ := h
  obtain ⟨d, hd, e, he, hdecLoc, hcolLoc⟩ := Config.exists_picks hdec hcol hne
  refine ⟨c.glyphs, d, e, hd, he, ?_⟩
  rw [Config.ofChoices, Config.tableOf_glyphs hspace hunknown, hdecLoc, hcolLoc]

theorem Config.installed_wf : Config.installed.wf :=
  Config.ofChoices_wf _ Config.decPick.isLt Config.colPick.isLt

namespace Machine

/-! ## Configuration time (R40, log entry 3) -/

theorem launch_of_wf {c : Config} (h : c.wf) : launch c = .next { State.reset with config := c } := if_pos h

/-- Settles O21: `Config.ofChoices` gives well-formed configurations and all of them, and `launch` admits each. -/
theorem everyWellFormedConfigurationIsAdmitted : Obligations.EveryWellFormedConfigurationIsAdmitted :=
  ⟨Config.installed_wf, fun _ hwf =>
    ⟨Config.wf.exists_ofChoices hwf, _, launch_of_wf hwf, rfl, rfl, rfl, rfl⟩⟩

end Machine

end Sys2Proof
end

section
/-! SUPPORT. What a command may look at, and what it does to each part of the state, said for all commands at once. -/

namespace Sys2Proof.Machine

variable {i : Instr} {s t : State}

/-! ## Every command has an outcome (R108) -/

theorem exec_total (i : Instr) (s : State) : ∃ t, exec i s = .next t := by
  cases i with
  | nop | index | resetBuf | clear => exact ⟨_, rfl⟩
  | lookup n =>
    rcases Nat.lt_or_ge n.toNat 96 with hn | hn
    · exact ⟨_, (Quiet.lookup n s hn).exec_eq⟩
    · exact ⟨_, (Stopped.lookup n s hn).exec_eq⟩
  | locate g d =>
    rcases Nat.lt_or_ge g.toNat 14 with hg | hg
    · exact ⟨_, (Quiet.locate g d s hg).exec_eq⟩
    · exact ⟨_, (Stopped.locate g d s hg).exec_eq⟩
  | renderAt c d =>
    cases hinit : s.init with
    | true => exact ⟨_, exec_renderAt_eq c d hinit⟩
    | false => exact ⟨_, (Stopped.renderAt c d s hinit).exec_eq⟩
  | putc c =>
    cases hinit : s.init with
    | false => exact ⟨_, (Stopped.putc c s hinit).exec_eq⟩
    | true =>
      cases hc : isModifier c with
      | true => exact ⟨_, exec_putc_modifier_eq hinit hc⟩
      | false =>
        rcases Nat.lt_or_ge s.digitPos.toNat 4 with hd | hd
        · exact ⟨_, exec_putc_ordinary_eq hinit hc hd⟩
        · exact ⟨_, (Stopped.full c s hinit hc hd).exec_eq⟩
  | read a =>
    cases hinit : s.init with
    | true => exact ⟨_, (Quiet.read a s hinit).exec_eq⟩
    | false => exact ⟨_, (Stopped.read a s hinit).exec_eq⟩
  | sync =>
    cases hinit : s.init with
    | true => exact ⟨_, (Quiet.sync s hinit).exec_eq⟩
    | false => exact ⟨_, (Stopped.sync s hinit).exec_eq⟩

/-! ## What a command looks at

The configuration and `INIT`, and once `INIT = 1` the shadow RAM and `DIGIT_POS`: a command does the same in a state
that agrees on these. -/

theorem Quiet.congr {o : Output} (h : Quiet i s o) (hconfig : t.config = s.config) (hinit : t.init = s.init)
    (hshadow : s.init = true → t.shadow = s.shadow) : Quiet i t o := by
  cases h with
  | nop => exact .nop t
  | index c => exact .index c t
  | lookup n _ hn => exact hconfig ▸ .lookup n t hn
  | locate g d _ hg => exact .locate g d t hg
  | read a _ h => exact hshadow h ▸ .read a t (hinit.trans h)
  | sync _ h => exact hshadow h ▸ .sync t (hinit.trans h)

theorem Stopped.congr {r : Stop} (h : Stopped i s r) (hinit : t.init = s.init)
    (hdigit : s.init = true → t.digitPos = s.digitPos) : Stopped i t r := by
  cases h with
  | lookup n _ hn => exact .lookup n t hn
  | locate g d _ hg => exact .locate g d t hg
  | renderAt c d _ h => exact .renderAt c d t (hinit.trans h)
  | putc c _ h => exact .putc c t (hinit.trans h)
  | read a _ h => exact .read a t (hinit.trans h)
  | sync _ h => exact .sync t (hinit.trans h)
  | full c _ h hc hd => exact hdigit h ▸ .full c t (hinit.trans h) hc (hdigit h ▸ hd)

/-- `RESET_BUF` and `CLEAR` run in every state. -/
theorem exec_zero_eq {o : Output} (h : i = .resetBuf ∧ o = .none ∨ i = .clear ∧ o = .frame (frameOf [])) :
    exec i s = .next { s.zeroBuf with outputs := s.outputs ++ [o] } := by
  rcases h with ⟨rfl, rfl⟩ | ⟨rfl, rfl⟩ <;> rfl

/-! ## What a command does to each field -/

theorem Ran.config_eq (h : Ran i s t) : t.config = s.config := by cases h <;> simp [*]

theorem exec_config (h : exec i s = .next t) : t.config = s.config := by
  rcases exec_cases h with ⟨_, _, rfl⟩ | h
  · rfl
  · exact h.config_eq

/-- `DIGIT_POS` has three bits, so its next value is the next number while a digit is left (R19). -/
theorem toNat_digitPos_succ {d : BitVec 3} (hd : d.toNat < 4) : (d + 1).toNat = d.toNat + 1 := by
  rw [BitVec.toNat_add]
  exact Nat.mod_eq_of_lt (by simp; omega)

/-- A command that leaves `MARK` empty was not stopped (R112). -/
theorem ran_of_mark_none (h : exec i s = .next t) (hmark : t.mark = none) : Ran i s t := by
  rcases exec_cases h with ⟨_, _, rfl⟩ | h
  · cases hmark
  · exact h

/-- The shadow RAM that a command leaves when it runs: a `PUTC` renders at `DIGIT_POS`, where the digit of a modifier
does not matter (R86, R88). -/
def shadowAfter (s : State) : Instr → Memory
  | .resetBuf | .clear => []
  | .renderAt c d => renderInto s.config c d s.shadow
  | .putc c => renderInto s.config c (s.digitPos.setWidth 2) s.shadow
  | _ => s.shadow

theorem Ran.shadow_eq (h : Ran i s t) : t.shadow = shadowAfter s i := by
  cases h with
  | out _ hi ht => subst ht; cases hi <;> rfl
  | zero _ hi ht => subst ht; rcases hi with ⟨rfl, -⟩ | ⟨rfl, -⟩ <;> rfl
  | render c d hi _ ht =>
    subst ht
    rcases hi with rfl | ⟨rfl, hc, -⟩
    · rfl
    · exact renderInto_modifier hc _ _ _
  | advance c hi _ _ _ ht => subst hi ht; rfl

end Sys2Proof.Machine
end

section
/-! O53 and O54. The invariant of R19 and R29 holds at reset and is kept by every step. -/

namespace Sys2Proof.Machine

variable {i : Instr} {s t : State}

/-- The image of a mask stays inside the segment region (R79, R84). -/
theorem inRegion_of_inImage {mask : SegMask} {d : BitVec 2} {l : Loc} (h : inImage mask d l) : l.inRegion = true := by
  obtain ⟨g, -, rfl⟩ := h
  exact locate_inRegion g d

/-- A render lights nothing outside the segment region but the flag bits (R41, R79). -/
theorem lights_outside_region {cfg : Config} {c : Byte} {d : BitVec 2} {l : Loc} (h : lights cfg c d l)
    (hl : l.inRegion = false) : l = cfg.decLoc ∨ l = cfg.colLoc := by
  unfold lights at h
  split at h
  · exact .inl h
  · split at h
    · exact .inr h
    · exact absurd (inRegion_of_inImage h) (Bool.eq_false_iff.mp hl)

/-! ## The invariant under each change of the state -/

/-- The invariant speaks of four fields only. -/
theorem State.Inv.congr (h : s.Inv) (hconfig : t.config = s.config) (hshadow : t.shadow = s.shadow)
    (hdigit : t.digitPos = s.digitPos) (hinit : t.init = s.init) : t.Inv := by
  obtain ⟨hwf, hle, hzero⟩ := h
  rw [← hshadow] at hwf
  rw [← hinit, ← hdigit] at hle
  rw [← hinit, ← hconfig, ← hshadow] at hzero
  exact ⟨hwf, hle, hzero⟩

/-- While `INIT = 0` only the canonical form is asked. -/
theorem State.inv_of_init_false (hwf : s.shadow.wf) (hinit : s.init = false) : s.Inv where
  shadow_wf := hwf
  digit_le h := by simp [hinit] at h
  unused_zero h := by simp [hinit] at h

theorem State.zeroBuf_inv (s : State) : s.zeroBuf.Inv where
  shadow_wf := wf_nil
  digit_le _ := Nat.zero_le _
  unused_zero _ l _ _ _ := bitAt_nil l

theorem State.Inv.render (h : s.Inv) (c : Byte) (d : BitVec 2) : (s.render c d).Inv where
  shadow_wf := renderInto_wf _ _ _ h.shadow_wf
  digit_le := h.digit_le
  unused_zero hinit l hl hdec hcol := by
    rw [State.render_shadow, Bool.eq_false_iff, Ne, bitAt_renderInto _ _ _ h.shadow_wf]
    rintro (hset | hlit)
    · exact Bool.eq_false_iff.mp (h.unused_zero hinit l hl hdec hcol) hset
    · exact (lights_outside_region hlit hl).elim hdec hcol

theorem State.Inv.advance (h : s.Inv) (hd : s.digitPos.toNat < 4) : { s with digitPos := s.digitPos + 1 }.Inv where
  shadow_wf := h.shadow_wf
  digit_le _ := (toNat_digitPos_succ hd).trans_le hd
  unused_zero := h.unused_zero

/-! ## Every command and every step keeps it -/

theorem Ran.inv (h : Ran i s t) (hs : s.Inv) : t.Inv := by
  cases h with
  | out _ _ ht => subst ht; exact hs.congr rfl rfl rfl rfl
  | zero _ _ ht => subst ht; exact s.zeroBuf_inv.congr rfl rfl rfl rfl
  | render c d _ _ ht => subst ht; exact (hs.render c d).congr rfl rfl rfl rfl
  | advance c _ _ _ hd ht =>
    subst ht
    exact ((hs.render c (s.digitPos.setWidth 2)).advance hd).congr rfl rfl rfl rfl

theorem exec_inv (h : exec i s = .next t) (hs : s.Inv) : t.Inv := by
  rcases exec_cases h with ⟨_, _, rfl⟩ | h
  · exact hs.congr rfl rfl rfl rfl
  · exact h.inv hs

theorem freeShadow_wf (n : Nat) : (freeShadow n).wf := by
  rw [freeShadow]
  exact memoryOf_wf _

theorem State.hostReset_inv (s : State) : s.hostReset.Inv := State.inv_of_init_false (freeShadow_wf _) rfl

/-- Settles O53: along `step_cases`, with `exec_inv` for the command of the port and `State.hostReset_inv` for a reset. -/
theorem everyStepKeepsTheInvariant : Obligations.EveryStepKeepsTheInvariant := by
  intro s t hs h
  rcases step_cases h with ⟨_, rfl⟩ | ⟨_, _, _, _, _, _, hx⟩ | ⟨_, _, _, _, _, _, rfl⟩ | ⟨_, _, rfl⟩
  · exact hs
  · exact exec_inv hx (hs.congr rfl rfl rfl rfl)
  · exact hs.congr rfl rfl rfl rfl
  · exact State.hostReset_inv _

/-- Settles O54: each of the three states has `INIT = 0` and a shadow RAM in canonical form. -/
theorem theInvariantHoldsAtReset : Obligations.TheInvariantHoldsAtReset := by
  refine ⟨State.inv_of_init_false wf_nil rfl, fun c t h => ?_, State.hostReset_inv⟩
  unfold launch at h
  split at h
  · cases h
    exact State.inv_of_init_false wf_nil rfl
  · cases h

end Sys2Proof.Machine
end

section
/-! O55. No run can tell what `SHADOW` and `DIGIT_POS` held while `INIT = 0`: `SameButUnset` is a simulation. -/

namespace Sys2Proof.Machine

variable {i : Instr} {s t : State}

theorem SameButUnset.refl (s : State) : SameButUnset s s := ⟨rfl, rfl, rfl, rfl, rfl, rfl, fun _ => rfl, fun _ => rfl⟩

/-- Once `INIT = 1` nothing is unset. -/
theorem SameButUnset.eq_of_init (h : SameButUnset s t) (hinit : s.init = true) : s = t := by
  obtain ⟨hconfig, hinit', hmark, hout, hport, hfree, hshadow, hdigit⟩ := h
  cases s
  cases t
  simp_all

theorem SameButUnset.setPort (h : SameButUnset s t) (rest : List HostInput) :
    SameButUnset { s with port := rest } { t with port := rest } :=
  { h with port := rfl }

theorem SameButUnset.setMark (h : SameButUnset s t) (r : Option Stop) :
    SameButUnset { s with mark := r } { t with mark := r } :=
  { h with mark := rfl }

theorem SameButUnset.output (h : SameButUnset s t) (o : Output) :
    SameButUnset { s with outputs := s.outputs ++ [o] } { t with outputs := t.outputs ++ [o] } :=
  { h with outputs := congrArg (· ++ [o]) h.outputs }

theorem SameButUnset.zeroBuf (h : SameButUnset s t) : SameButUnset s.zeroBuf t.zeroBuf :=
  { h with init := rfl, shadow := fun _ => rfl, digitPos := fun _ => rfl }

/-- A reset draws the same free values in both (log entry 5). -/
theorem SameButUnset.hostReset (h : SameButUnset s t) : SameButUnset s.hostReset t.hostReset where
  config := h.config
  init := rfl
  mark := rfl
  outputs := rfl
  port := h.port
  freeCount := congrArg (· + 1) h.freeCount
  shadow hinit := by cases hinit
  digitPos hinit := by cases hinit

/-- With `INIT = 0` no command reads what is unset (R20): one that would is stopped, and `RESET_BUF` and `CLEAR` set it. -/
theorem SameButUnset.exec_of_not_init (h : SameButUnset s t) (hinit : s.init = false) (i : Instr) :
    ∃ s' t', exec i s = .next s' ∧ exec i t = .next t' ∧ SameButUnset s' t' := by
  obtain ⟨s', hs⟩ := exec_total i s
  have hunset {p : Prop} (hi : s.init = true) : p := absurd hi (Bool.eq_false_iff.mp hinit)
  rcases exec_cases hs with ⟨r, hr, rfl⟩ | hran
  · exact ⟨_, _, hs, (hr.congr h.init.symm hunset).exec_eq, h.setMark r⟩
  · cases hran with
    | out o ho hs' =>
      subst hs'
      exact ⟨_, _, hs, (ho.congr h.config.symm h.init.symm hunset).exec_eq, h.output o⟩
    | zero o hi hs' =>
      subst hs'
      exact ⟨_, _, hs, exec_zero_eq hi, h.zeroBuf.output o⟩
    | render _ _ _ hi _ => exact hunset hi
    | advance _ _ _ hi _ _ => exact hunset hi

theorem SameButUnset.exec (h : SameButUnset s t) (i : Instr) :
    ∃ s' t', exec i s = .next s' ∧ exec i t = .next t' ∧ SameButUnset s' t' := by
  cases hinit : s.init with
  | false => exact h.exec_of_not_init hinit i
  | true =>
    obtain rfl := h.eq_of_init hinit
    obtain ⟨s', hs⟩ := exec_total i s
    exact ⟨s', s', hs, hs, .refl s'⟩

theorem SameButUnset.runWord (h : SameButUnset s t) (w : Word) :
    (∃ s' t', runWord w s = .next s' ∧ runWord w t = .next t' ∧ SameButUnset s' t') ∨
      (runWord w s = .fault .runEnded ∧ runWord w t = .fault .runEnded) := by
  unfold Machine.runWord
  rw [← h.mark]
  cases s.mark with
  | some _ => exact .inr ⟨rfl, rfl⟩
  | none =>
    cases decode w with
    | cmd i => exact .inl (h.exec i)
    | refuse code => exact .inl ⟨_, _, rfl, rfl, h.setMark _⟩

/-- The simulation: one step of the one state is one of the other. -/
theorem SameButUnset.step (h : SameButUnset s t) :
    (∃ s' t', step s = .next s' ∧ step t = .next t' ∧ SameButUnset s' t') ∨
      (step s = .fault .runEnded ∧ step t = .fault .runEnded) := by
  unfold Machine.step takeInput
  rw [← h.port]
  cases s.port with
  | nil => exact .inl ⟨s, t, rfl, rfl, h⟩
  | cons input rest =>
    cases input with
    | command w => exact (h.setPort rest).runWord w
    | reset => exact .inl ⟨_, _, rfl, rfl, (h.setPort rest).hostReset⟩

/-- Settles O55: by induction on the number of steps, with `SameButUnset.step`. -/
theorem unsetStateIsNeverObserved : Obligations.UnsetStateIsNeverObserved := by
  intro k
  induction k with
  | zero => exact fun s t h => .inl ⟨s, t, rfl, rfl, h⟩
  | succ k ih =>
    intro s t h
    rcases h.step with ⟨s', t', hs, ht, h'⟩ | ⟨hs, ht⟩
    · rw [run_succ k hs, run_succ k ht]
      exact ih s' t' h'
    · exact .inr ⟨run_succ_fault k hs, run_succ_fault k ht⟩

end Sys2Proof.Machine
end

section
/-! O19, O22, O38, O45, O50, O51 and O52. How each field of the state moves: what a command, and a reset, does to it. -/

namespace Sys2Proof.Machine

variable {i : Instr} {s t : State}

/-- Settles O19: a reset presented next is taken by the step. -/
theorem resetStartsARun : Obligations.ResetStartsARun := by
  refine ⟨rfl, rfl, rfl, fun s rest hp => ⟨{ s with port := rest }.hostReset, ?_, rfl, rfl, rfl, rfl⟩⟩
  rw [step, takeInput, hp]

/-- Settles O22: along `step_cases`, with `exec_config` for a command. -/
theorem noStepChangesTheConfiguration : Obligations.NoStepChangesTheConfiguration := by
  intro s t h
  rcases step_cases h with ⟨_, rfl⟩ | ⟨_, _, _, _, _, _, hx⟩ | ⟨_, _, _, _, _, _, rfl⟩ | ⟨_, _, rfl⟩
  · rfl
  · exact (exec_config hx).trans rfl
  · rfl
  · rfl

/-! ## `INIT` and `DIGIT_POS` (R19, R20) -/

theorem Ran.init_iff (h : Ran i s t) : t.init = true ↔ s.init = true ∨ i = .resetBuf ∨ i = .clear := by
  cases h with
  | out _ hi ht => subst ht; cases hi <;> simp
  | zero _ hi ht => subst ht; rcases hi with ⟨rfl, -⟩ | ⟨rfl, -⟩ <;> simp
  | render _ _ _ hinit ht => subst ht; simp [hinit]
  | advance _ _ _ hinit _ ht => subst ht; simp [hinit]

theorem exec_init_iff (h : exec i s = .next t) : t.init = true ↔ s.init = true ∨ i = .resetBuf ∨ i = .clear := by
  rcases exec_cases h with ⟨_, hr, rfl⟩ | h
  · cases hr <;> simp
  · exact h.init_iff

/-- Settles O52: `exec_init_iff`, and the four cases of `Stopped` that ask `INIT = 0`. -/
theorem initIsSetByResetBufAndClearOnly : Obligations.InitIsSetByResetBufAndClearOnly := by
  refine ⟨rfl, fun _ _ _ => exec_init_iff, fun i s hi hinit => ?_⟩
  rcases hi with ⟨c, d, rfl⟩ | ⟨c, rfl⟩ | ⟨a, rfl⟩ | rfl
  · exact (Stopped.renderAt c d s hinit).exec_eq
  · exact (Stopped.putc c s hinit).exec_eq
  · exact (Stopped.read a s hinit).exec_eq
  · exact (Stopped.sync s hinit).exec_eq

/-- Settles O51: by the four ways in which a command runs. -/
theorem digitPositionAdvancesOncePerOrdinaryCharacter :
    Obligations.DigitPositionAdvancesOncePerOrdinaryCharacter := by
  intro i s t h hmark
  cases ran_of_mark_none h hmark with
  | out _ hi ht => subst ht; cases hi <;> simp
  | zero _ hi ht => subst ht; rcases hi with ⟨rfl, -⟩ | ⟨rfl, -⟩ <;> simp
  | render c d hi _ ht =>
    subst ht
    rcases hi with rfl | ⟨rfl, hc, -⟩
    · simp
    · refine ⟨by simp, fun c' hc' hdec hcol => ?_, fun _ _ _ => rfl⟩
      cases hc'
      exact absurd ((isModifier_iff c).mp hc) (not_or.mpr ⟨hdec, hcol⟩)
  | advance c hi hc _ hd ht =>
    subst hi ht
    refine ⟨by simp, fun _ _ _ _ => toNat_digitPos_succ hd, fun _ _ hmod => ?_⟩
    exact absurd ((isModifier_iff c).mpr (hmod c rfl)) (Bool.eq_false_iff.mp hc)

/-! ## Outputs (R27) -/

/-- Settles O45: by `Quiet.congr` and `Stopped.congr`, since no command looks at the outputs. -/
theorem outputsAreNeverRead : Obligations.OutputsAreNeverRead := by
  intro i s t before h
  rcases exec_cases h with ⟨r, hr, rfl⟩ | hran
  · exact (hr.congr (t := { s with outputs := before ++ s.outputs }) rfl fun _ => rfl).exec_eq
  · cases hran with
    | out o ho ht =>
      subst ht
      simp only [← List.append_assoc]
      exact (ho.congr (t := { s with outputs := before ++ s.outputs }) rfl rfl fun _ => rfl).exec_eq
    | zero o hi ht =>
      subst ht
      simp only [← List.append_assoc]
      exact exec_zero_eq hi
    | render c d hi hinit ht =>
      subst ht
      simp only [← List.append_assoc]
      rcases hi with rfl | ⟨rfl, hc, rfl⟩
      · exact exec_renderAt_eq c d hinit
      · exact exec_putc_modifier_eq hinit hc
    | advance c hi hc hinit hd ht =>
      subst hi ht
      simp only [← List.append_assoc]
      exact exec_putc_ordinary_eq hinit hc hd

/-! ## The shadow RAM (R17) -/

theorem bitAt_shadowAfter (hm : s.shadow.wf) (hi : i ≠ .resetBuf ∧ i ≠ .clear) (l : Loc) :
    bitAt (shadowAfter s i) l = true ↔ bitAt s.shadow l = true ∨
      ∃ c d, (i = .renderAt c d ∨ i = .putc c ∧ d = s.digitPos.setWidth 2) ∧ lights s.config c d l := by
  cases i with
  | resetBuf => exact absurd rfl hi.1
  | clear => exact absurd rfl hi.2
  | renderAt c d => rw [shadowAfter, bitAt_renderInto _ _ _ hm]; simp
  | putc c => rw [shadowAfter, bitAt_renderInto _ _ _ hm]; simp
  | _ => simp [shadowAfter]

/-- Settles O50: a stopped command leaves the bytes alone, and `bitAt_shadowAfter` gives the bits of one that ran. -/
theorem shadowChangesInTwoWaysOnly : Obligations.ShadowChangesInTwoWaysOnly := by
  intro i s t hm h
  rcases exec_cases h with ⟨_, _, rfl⟩ | hran
  · exact .inr ⟨fun _ hl => hl, fun l hset hclear => absurd hset (Bool.eq_false_iff.mp hclear)⟩
  · by_cases hi : i = .resetBuf ∨ i = .clear
    · refine .inl ⟨hi, fun a => ?_⟩
      rw [hran.shadow_eq]
      rcases hi with rfl | rfl <;> exact readByte_nil a
    · rw [hran.shadow_eq]
      have hbits := bitAt_shadowAfter hm (not_or.mp hi)
      refine .inr ⟨fun l hl => (hbits l).mpr (.inl hl), fun l hset hclear => ?_⟩
      rcases (hbits l).mp hset with hl | ⟨c, d, hc, hlit⟩
      · exact absurd hl (Bool.eq_false_iff.mp hclear)
      · exact ⟨c, d, hc.imp_right And.left, hlit⟩

/-! ## The flags (R21, R22) -/

theorem lights_decLoc {cfg : Config} (hcfg : cfg.wf) (c : Byte) (d : BitVec 2) :
    lights cfg c d cfg.decLoc ↔ c = 0x2E#8 := by
  obtain ⟨-, -, hdec, -, hne⟩ := hcfg
  have himage : ¬ inImage (enc cfg c) d cfg.decLoc := fun h => Bool.eq_false_iff.mp hdec (inRegion_of_inImage h)
  unfold lights
  split_ifs with h
  · exact iff_of_true rfl h
  · exact iff_of_false hne h
  · exact iff_of_false himage h

theorem lights_colLoc {cfg : Config} (hcfg : cfg.wf) (c : Byte) (d : BitVec 2) :
    lights cfg c d cfg.colLoc ↔ c = 0x3A#8 := by
  obtain ⟨-, -, -, hcol, hne⟩ := hcfg
  have himage : ¬ inImage (enc cfg c) d cfg.colLoc := fun h => Bool.eq_false_iff.mp hcol (inRegion_of_inImage h)
  unfold lights
  split_ifs with h h'
  · exact iff_of_false hne.symm (h ▸ by decide)
  · exact iff_of_true rfl h'
  · exact iff_of_false himage h'

/-- A location that one character alone lights is set by a render of it, and cleared with the whole buffer. -/
theorem bitAt_shadowAfter_of_lights {l : Loc} {ch : Byte} (hm : s.shadow.wf)
    (hl : ∀ c d, lights s.config c d l ↔ c = ch) :
    bitAt (shadowAfter s i) l = true ↔ (i = .putc ch ∨ ∃ d, i = .renderAt ch d) ∨
      (bitAt s.shadow l = true ∧ i ≠ .resetBuf ∧ i ≠ .clear) := by
  by_cases hi : i = .resetBuf ∨ i = .clear
  · rcases hi with rfl | rfl <;> simp [shadowAfter]
  · rw [bitAt_shadowAfter hm (not_or.mp hi)]
    simp only [hl]
    grind

/-- Settles O38: each flag's location is one that its character alone lights. -/
theorem flagsAreSetByTheirCharacterOnly : Obligations.FlagsAreSetByTheirCharacterOnly := by
  intro i s t hcfg hm h hmark
  have hran := ran_of_mark_none h hmark
  rw [State.decFlag, State.colFlag, hran.config_eq, hran.shadow_eq]
  exact ⟨bitAt_shadowAfter_of_lights hm (lights_decLoc hcfg), bitAt_shadowAfter_of_lights hm (lights_colLoc hcfg)⟩

end Sys2Proof.Machine
end

section
/-! O13, O20, O36 and O46. What `launch` refuses; what a step leaves for later: the port behind its head, and the state
that a repeated command finds. -/

namespace Sys2Proof.Machine

variable {i : Instr} {s t : State}

/-! ## Configuration time (R40) -/

theorem launch_of_not_wf {c : Config} (h : ¬ c.wf) : launch c = .refused .illFormedConfig := if_neg h

/-- Settles O20: each of the three breaks one clause of `Config.wf`. -/
theorem illFormedFlagLocationsAreRefused : Obligations.IllFormedFlagLocationsAreRefused := by
  refine fun c hbad => launch_of_not_wf fun ⟨_, _, hdec, hcol, hne⟩ => ?_
  rcases hbad with hbad | hbad | hbad
  · exact Bool.eq_false_iff.mp hdec hbad
  · exact Bool.eq_false_iff.mp hcol hbad
  · exact hne hbad

/-! ## No command reads or moves the port (R43, R48) -/

theorem Ran.exec_eq (h : Ran i s t) : exec i s = .next t := by
  cases h with
  | out _ hi ht => exact ht ▸ hi.exec_eq
  | zero _ hi ht => exact ht ▸ exec_zero_eq hi
  | render c d hi hinit ht =>
    rcases hi with rfl | ⟨rfl, hc, rfl⟩
    · exact ht ▸ exec_renderAt_eq c d hinit
    · exact ht ▸ exec_putc_modifier_eq hinit hc
  | advance c hi hc hinit hd ht =>
    subst hi
    exact ht ▸ exec_putc_ordinary_eq hinit hc hd

theorem Ran.port_eq (h : Ran i s t) : t.port = s.port := by cases h <;> simp [*]

theorem Ran.setPort (h : Ran i s t) (port : List HostInput) :
    Ran i { s with port := port } { t with port := port } := by
  cases h with
  | out o hi ht => exact .out o (hi.congr rfl rfl fun _ => rfl) (by rw [ht])
  | zero o hi ht => exact .zero o hi (by rw [ht]; rfl)
  | render c d hi hinit ht => exact .render c d hi hinit (by rw [ht]; rfl)
  | advance c hi hc hinit hd ht => exact .advance c hi hc hinit hd (by rw [ht]; rfl)

theorem exec_port (h : exec i s = .next t) : t.port = s.port := by
  rcases exec_cases h with ⟨_, _, rfl⟩ | h
  · rfl
  · exact h.port_eq

theorem exec_setPort (h : exec i s = .next t) (port : List HostInput) :
    exec i { s with port := port } = .next { t with port := port } := by
  rcases exec_cases h with ⟨r, hr, rfl⟩ | h
  · exact (hr.congr (t := { s with port := port }) rfl fun _ => rfl).exec_eq
  · exact (h.setPort port).exec_eq

theorem runWord_port {w : Word} (h : runWord w s = .next t) :
    t.port = s.port ∧ ∀ port, runWord w { s with port := port } = .next { t with port := port } := by
  unfold runWord at h ⊢
  split at h
  · cases h
  · rename_i hmark
    simp only [hmark]
    cases hd : decode w with
    | cmd i =>
      rw [hd] at h
      exact ⟨exec_port h, fun port => by simpa only [hmark] using exec_setPort h port⟩
    | refuse code =>
      rw [hd] at h
      cases State.raise_eq_next.mp h
      exact ⟨rfl, fun _ => rfl⟩

theorem step_command {w : Word} {rest : List HostInput} (hp : s.port = .command w :: rest) :
    step s = runWord w { s with port := rest } := by
  rw [step, takeInput, hp]

theorem step_reset {rest : List HostInput} (hp : s.port = .reset :: rest) :
    step s = .next { s with port := rest }.hostReset := by
  rw [step, takeInput, hp]

/-- Settles O13: the step hands on the rest of the port, which neither a word nor a reset looks at. -/
theorem stepReadsOnlyTheHeadOfThePort : Obligations.StepReadsOnlyTheHeadOfThePort := by
  intro s t inp rest hp h
  cases inp with
  | command w =>
    rw [step_command hp] at h
    obtain ⟨hport, hrun⟩ := runWord_port h
    exact ⟨hport, fun rest' => (step_command rfl).trans (hrun rest')⟩
  | reset =>
    rw [step_reset hp] at h
    cases h
    exact ⟨rfl, fun rest' => (step_reset rfl).trans rfl⟩

/-! ## Repeating a command (R38) -/

/-- A second render of a character finds its bits set (R85). -/
theorem renderInto_idem (cfg : Config) (c : Byte) (d : BitVec 2) {m : Memory} (hm : m.wf) :
    renderInto cfg c d (renderInto cfg c d m) = renderInto cfg c d m := by
  have hm' := renderInto_wf cfg c d hm
  refine Memory.ext_of_bits (renderInto_wf cfg c d hm') hm' fun l => ?_
  rw [Bool.eq_iff_iff, bitAt_renderInto cfg c d hm']
  exact or_iff_left_of_imp fun hlit => (bitAt_renderInto cfg c d hm l).mpr (.inr hlit)

/-- Settles O36: with `INIT = 0` both renders are stopped, else `renderInto_idem`; and `PUTC` adds 1 to `DIGIT_POS`. -/
theorem renderAtIsIdempotent : Obligations.RenderAtIsIdempotent := by
  refine ⟨fun c d s t u hm ht hu => ?_, fun c s t hdec hcol hinit hd ht => ?_⟩
  · cases hinit : s.init with
    | false =>
      cases ht.symm.trans (Stopped.renderAt c d s hinit).exec_eq
      cases hu.symm.trans (Stopped.exec_eq (.renderAt c d _ hinit))
      rfl
    | true =>
      cases ht.symm.trans (exec_renderAt_eq c d hinit)
      cases hu.symm.trans (exec_renderAt_eq c d hinit)
      exact renderInto_idem s.config c d hm
  · have hc : isModifier c = false := by
      rw [Bool.eq_false_iff, Ne, isModifier_iff]
      exact not_or.mpr ⟨hdec, hcol⟩
    cases ht.symm.trans (exec_putc_ordinary_eq hinit hc hd)
    exact fun hsame => absurd (congrArg BitVec.toNat hsame) (by rw [toNat_digitPos_succ hd]; omega)

/-- Settles O46: a read that runs only gives an output, which the next one does not look at (`Quiet.congr`). -/
theorem readsHaveNoSideEffect : Obligations.ReadsHaveNoSideEffect := by
  intro i s t u hi ht hmark hu
  cases ran_of_mark_none ht hmark with
  | out o ho h =>
    subst h
    cases hu.symm.trans (Quiet.exec_eq (ho.congr rfl rfl fun _ => rfl))
    exact ⟨rfl, rfl, rfl, o, rfl, rfl⟩
  | zero _ hzero _ => rcases hzero with ⟨rfl, -⟩ | ⟨rfl, -⟩ <;> simp at hi
  | render _ _ hrender _ _ => rcases hrender with rfl | ⟨rfl, -, -⟩ <;> simp at hi
  | advance _ hputc _ _ _ _ => subst hputc; simp at hi

end Sys2Proof.Machine
end

section
/-! SUPPORT. Words as numbers: a command word is `4096 * OP + payload`, its must-be-zero bits are 0 exactly when the
payload is below a power of two (R49), and so the decoder, the encoder and the opcode map are arithmetic on the word. -/

namespace Sys2Proof

/-! ## The fields of a word (R48 to R50) -/

/-- How many low bits the format of each `OP` uses for operands; the bits from there to bit 11 must be zero (R49). -/
def payloadBits : Nat → Nat
  | 1 => 8
  | 2 => 7
  | 3 => 6
  | 4 => 10
  | 5 => 8
  | 8 => 4
  | _ => 0

theorem opField_toNat (w : Word) : (opField w).toNat = w.toNat / 4096 := by
  rw [opField, BitVec.extractLsb'_toNat, Nat.shiftRight_eq_div_pow]
  omega

/-- A field is the number made of its bits in place (R50). -/
theorem extractLsb'_eq_iff {w : Word} {k n : Nat} {x : BitVec n} :
    w.extractLsb' k n = x ↔ w.toNat / 2 ^ k % 2 ^ n = x.toNat := by
  rw [← BitVec.toNat_inj, BitVec.extractLsb'_toNat, Nat.shiftRight_eq_div_pow]

theorem toNat_and_highBits (w : Word) (k : Nat) :
    (w &&& BitVec.allOnes 16 <<< k).toNat = w.toNat / 2 ^ k * 2 ^ k := by
  rw [← BitVec.shiftLeft_ushiftRight, BitVec.toNat_shiftLeft, BitVec.toNat_ushiftRight, Nat.shiftRight_eq_div_pow,
    Nat.shiftLeft_eq]
  exact Nat.mod_eq_of_lt (Nat.lt_of_le_of_lt (Nat.div_mul_le_self _ _) w.isLt)

theorem zmask_eq : ∀ op < 10, zmask op = 0x0FFF &&& BitVec.allOnes 16 <<< payloadBits op := by decide

/-- The must-be-zero bits are 0 exactly when the low twelve bits are an operand payload (R49). -/
theorem and_zmask_eq_zero_iff (w : Word) {op : Nat} (hop : op < 10) :
    w &&& zmask op = 0 ↔ w.toNat % 4096 < 2 ^ payloadBits op := by
  have hlow : (w &&& 0x0FFF).toNat = w.toNat % 4096 := Nat.and_two_pow_sub_one_eq_mod _ 12
  rw [zmask_eq op hop, ← BitVec.and_assoc, ← BitVec.toNat_inj, toNat_and_highBits, hlow]
  simp [Nat.div_eq_zero_iff]

/-! ## The decoder on numbers (R52, R53, R56) -/

theorem decode_of_opcode_ge {w : Word} (hop : 10 ≤ w.toNat / 4096) : decode w = .refuse .refOpcode := by
  rw [decode, opField_toNat, if_pos hop]

theorem decode_of_reserved {w : Word} (hop : w.toNat / 4096 < 10)
    (hz : ¬ w.toNat % 4096 < 2 ^ payloadBits (w.toNat / 4096)) : decode w = .refuse .refRsvdBits := by
  rw [decode, opField_toNat, if_neg (Nat.not_le.mpr hop), if_pos (mt (and_zmask_eq_zero_iff w hop).mp hz)]

theorem decode_of_format {w : Word} (hop : w.toNat / 4096 < 10)
    (hz : w.toNat % 4096 < 2 ^ payloadBits (w.toNat / 4096)) : decode w = decodeOp (w.toNat / 4096) w := by
  rw [decode, opField_toNat, if_neg (Nat.not_le.mpr hop),
    if_neg (not_not.mpr ((and_zmask_eq_zero_iff w hop).mpr hz))]

/-! ## Commands as numbers (R57) -/

/-- The `OP` of a command (R51). -/
def Instr.opcode : Instr → Nat
  | .nop => 0
  | .index _ => 1
  | .lookup _ => 2
  | .locate _ _ => 3
  | .renderAt _ _ => 4
  | .putc _ => 5
  | .resetBuf => 6
  | .clear => 7
  | .read _ => 8
  | .sync => 9

/-- The operands of a command, each at the weight of its field (R49, R50). -/
def Instr.payload : Instr → Nat
  | .index c => c.toNat
  | .lookup n => n.toNat
  | .locate g d => 4 * g.toNat + d.toNat
  | .renderAt c d => 256 * d.toNat + c.toNat
  | .putc c => c.toNat
  | .read a => a.toNat
  | .nop | .resetBuf | .clear | .sync => 0

theorem Instr.opcode_lt (i : Instr) : i.opcode < 10 := by cases i <;> simp [Instr.opcode]

theorem Instr.payload_lt (i : Instr) : i.payload < 2 ^ payloadBits i.opcode := by
  cases i <;> simp only [Instr.payload, Instr.opcode, payloadBits] <;> omega

theorem Instr.payload_lt_4096 (i : Instr) : i.payload < 4096 := by
  cases i <;> simp only [Instr.payload] <;> omega

/-- Joining bits below `k` to bits from `k` on is addition. -/
theorem toNat_or_of_disjoint {x y : Word} (k : Nat) (hx : x.toNat % 2 ^ k = 0) (hy : y.toNat < 2 ^ k) :
    (x ||| y).toNat = x.toNat + y.toNat := by
  have hx' : x.toNat = 2 ^ k * (x.toNat / 2 ^ k) := (Nat.mul_div_cancel' (Nat.dvd_of_mod_eq_zero hx)).symm
  rw [BitVec.toNat_or, hx', ← Nat.two_pow_add_eq_or_of_lt hy]

theorem toNat_setWidth_shiftLeft {n k : Nat} (h : n + k ≤ 16) (x : BitVec n) :
    (x.setWidth 16 <<< k).toNat = 2 ^ k * x.toNat := by
  have hx : 2 ^ k * x.toNat < 2 ^ 16 := by
    calc 2 ^ k * x.toNat < 2 ^ k * 2 ^ n := Nat.mul_lt_mul_of_pos_left x.isLt (Nat.two_pow_pos k)
      _ = 2 ^ (n + k) := by rw [← Nat.pow_add, Nat.add_comm]
      _ ≤ 2 ^ 16 := Nat.pow_le_pow_right Nat.two_pos h
  rw [BitVec.toNat_shiftLeft, BitVec.toNat_setWidth_of_le (by omega), Nat.shiftLeft_eq, Nat.mul_comm,
    Nat.mod_eq_of_lt hx]

/-- A match of R51 and an operand in the low bits. -/
theorem toNat_or_setWidth {n : Nat} {x : Word} (hn : n ≤ 16) (hx : x.toNat % 2 ^ n = 0) (y : BitVec n) :
    (x ||| y.setWidth 16).toNat = x.toNat + y.toNat := by
  have hy : (y.setWidth 16).toNat = y.toNat := BitVec.toNat_setWidth_of_le hn
  rw [toNat_or_of_disjoint n hx (hy ▸ y.isLt), hy]

theorem encode_toNat (i : Instr) : (encode i).toNat = 4096 * i.opcode + i.payload := by
  cases i with
  | nop | resetBuf | clear | sync => rfl
  | index c | lookup n | putc c | read a => exact toNat_or_setWidth (by decide) (by decide) _
  | locate g d =>
    have hg : (g.setWidth 16 <<< 2).toNat = 4 * g.toNat := toNat_setWidth_shiftLeft (by decide) g
    have hop : (0x3000 ||| g.setWidth 16 <<< 2 : Word).toNat = 0x3000 + 4 * g.toNat := by
      rw [toNat_or_of_disjoint 12 (by decide) (by omega), hg]
      rfl
    rw [encode, toNat_or_setWidth (by decide) (by omega), hop, Nat.add_assoc]
    rfl
  | renderAt c d =>
    have hd : (d.setWidth 16 <<< 8).toNat = 256 * d.toNat := toNat_setWidth_shiftLeft (by decide) d
    have hop : (0x4000 ||| d.setWidth 16 <<< 8 : Word).toNat = 0x4000 + 256 * d.toNat := by
      rw [toNat_or_of_disjoint 12 (by decide) (by omega), hd]
      rfl
    rw [encode, toNat_or_setWidth (by decide) (by omega), hop, Nat.add_assoc]
    rfl

theorem encode_opcode (i : Instr) : (encode i).toNat / 4096 = i.opcode := by
  have := i.payload_lt_4096
  rw [encode_toNat]
  omega

theorem encode_payload (i : Instr) : (encode i).toNat % 4096 = i.payload := by
  have := i.payload_lt_4096
  rw [encode_toNat]
  omega

/-- Every payload of a format belongs to a command, in range or not (R49). -/
theorem Instr.exists_of_payload : ∀ {op p : Nat}, op < 10 → p < 2 ^ payloadBits op →
    ∃ i : Instr, i.opcode = op ∧ i.payload = p
  | 0, _, _, hp => ⟨.nop, rfl, (Nat.lt_one_iff.mp hp).symm⟩
  | 1, p, _, hp => ⟨.index (.ofNatLT p hp), rfl, rfl⟩
  | 2, p, _, hp => ⟨.lookup (.ofNatLT p hp), rfl, rfl⟩
  | 3, p, _, hp =>
    have hg : p / 4 < 2 ^ 4 := Nat.div_lt_of_lt_mul hp
    ⟨.locate (.ofNatLT (p / 4) hg) (.ofNatLT (p % 4) (Nat.mod_lt p (by decide))), rfl, Nat.div_add_mod p 4⟩
  | 4, p, _, hp =>
    have hd : p / 256 < 2 ^ 2 := Nat.div_lt_of_lt_mul hp
    ⟨.renderAt (.ofNatLT (p % 256) (Nat.mod_lt p (by decide))) (.ofNatLT (p / 256) hd), rfl, Nat.div_add_mod p 256⟩
  | 5, p, _, hp => ⟨.putc (.ofNatLT p hp), rfl, rfl⟩
  | 6, _, _, hp => ⟨.resetBuf, rfl, (Nat.lt_one_iff.mp hp).symm⟩
  | 7, _, _, hp => ⟨.clear, rfl, (Nat.lt_one_iff.mp hp).symm⟩
  | 8, p, _, hp => ⟨.read (.ofNatLT p hp), rfl, rfl⟩
  | 9, _, _, hp => ⟨.sync, rfl, (Nat.lt_one_iff.mp hp).symm⟩
  | _ + 10, _, hop, _ => absurd hop (by omega)

/-- A word with an assigned `OP` and clear must-be-zero bits is the word of some command, in range or not. -/
theorem exists_encode_eq {w : Word} (hop : w.toNat / 4096 < 10)
    (hz : w.toNat % 4096 < 2 ^ payloadBits (w.toNat / 4096)) : ∃ i, encode i = w := by
  obtain ⟨i, hi, hp⟩ := Instr.exists_of_payload hop hz
  refine ⟨i, BitVec.eq_of_toNat_eq ?_⟩
  rw [encode_toNat, hi, hp]
  exact Nat.div_add_mod _ _

/-- A command out of range is a `LOOKUP` or a `LOCATE` (R54). -/
theorem Instr.not_wf_cases {i : Instr} (h : ¬ i.wf = true) :
    (∃ n, i = .lookup n ∧ 96 ≤ n.toNat) ∨ ∃ g d, i = .locate g d ∧ 14 ≤ g.toNat := by
  cases i with
  | lookup n => exact .inl ⟨n, rfl, by simpa [Instr.wf] using h⟩
  | locate g d => exact .inr ⟨g, d, rfl, by simpa [Instr.wf] using h⟩
  | _ => exact absurd rfl h

/-! ## Decoder and encoder agree (R56, R57) -/

/-- The refusal of a command out of range (R54). -/
def Instr.rangeCode : Instr → RefuseCode
  | .locate _ _ => .refSegment
  | _ => .refIndex

/-- The operand at bit `k` of a command's word. -/
theorem encode_field {i : Instr} {k n : Nat} {x : BitVec n}
    (h : (4096 * i.opcode + i.payload) / 2 ^ k % 2 ^ n = x.toNat := by
      simp only [Instr.opcode, Instr.payload]; omega) :
    (encode i).extractLsb' k n = x := by
  rwa [extractLsb'_eq_iff, encode_toNat]

theorem encode_lookup_field (n : BitVec 7) : (encode (.lookup n)).extractLsb' 0 7 = n := encode_field

theorem encode_locate_seg (g : BitVec 4) (d : BitVec 2) : (encode (.locate g d)).extractLsb' 2 4 = g := encode_field

theorem decodeOp_encode (i : Instr) :
    decodeOp i.opcode (encode i) = if i.wf then .cmd i else .refuse i.rangeCode := by
  cases i with
  | nop | resetBuf | clear | sync => rfl
  | index c =>
    have hc : (encode (.index c)).extractLsb' 0 8 = c := encode_field
    simp [decodeOp, Instr.opcode, Instr.wf, hc]
  | lookup n =>
    by_cases h : n.toNat < 96 <;>
      simp [decodeOp, Instr.opcode, Instr.wf, Instr.rangeCode, encode_lookup_field, h]
  | locate g d =>
    have hd : (encode (.locate g d)).extractLsb' 0 2 = d := encode_field
    by_cases h : g.toNat < 14 <;> simp [decodeOp, Instr.opcode, Instr.wf, Instr.rangeCode, encode_locate_seg, hd, h]
  | renderAt c d =>
    have hc : (encode (.renderAt c d)).extractLsb' 0 8 = c := encode_field
    have hd : (encode (.renderAt c d)).extractLsb' 8 2 = d := encode_field
    simp [decodeOp, Instr.opcode, Instr.wf, hc, hd]
  | putc c =>
    have hc : (encode (.putc c)).extractLsb' 0 8 = c := encode_field
    simp [decodeOp, Instr.opcode, Instr.wf, hc]
  | read a =>
    have ha : (encode (.read a)).extractLsb' 0 4 = a := encode_field
    simp [decodeOp, Instr.opcode, Instr.wf, ha]

/-- The word of any command passes the tests on `OP` and on the must-be-zero bits; only its range is left to ask. -/
theorem decode_encode (i : Instr) : decode (encode i) = if i.wf then .cmd i else .refuse i.rangeCode := by
  rw [← decodeOp_encode, ← encode_opcode]
  apply decode_of_format <;> simp only [encode_opcode, encode_payload]
  · exact i.opcode_lt
  · exact i.payload_lt

theorem decode_encode_of_wf {i : Instr} (h : i.wf = true) : decode (encode i) = .cmd i := by
  rw [decode_encode, if_pos h]

theorem decode_encode_of_not_wf {i : Instr} (h : ¬ i.wf = true) : decode (encode i) = .refuse i.rangeCode := by
  rw [decode_encode, if_neg h]

/-- A word that decodes is the word of the command it decodes to, which is in range. -/
theorem decode_eq_cmd {w : Word} {i : Instr} (h : decode w = .cmd i) : i.wf = true ∧ encode i = w := by
  by_cases hop : w.toNat / 4096 < 10
  · by_cases hz : w.toNat % 4096 < 2 ^ payloadBits (w.toNat / 4096)
    · obtain ⟨j, rfl⟩ := exists_encode_eq hop hz
      rw [decode_encode] at h
      split at h <;> cases h
      exact ⟨‹_›, rfl⟩
    · rw [decode_of_reserved hop hz] at h
      cases h
  · rw [decode_of_opcode_ge (Nat.le_of_not_lt hop)] at h
    cases h

theorem toNat_of_decode {w : Word} {i : Instr} (h : decode w = .cmd i) :
    w.toNat = 4096 * i.opcode + i.payload := by
  rw [← (decode_eq_cmd h).2, encode_toNat]

/-! ## The opcode map (R51) -/

/-- The `OP` of a row's match. -/
def OpRow.opcode (r : OpRow) : Nat := r.pattern.toNat / 4096

/-- A row's match is its `OP`, and its mask covers the `OP` and the must-be-zero bits. -/
theorem opcodeTable_rows : ∀ r ∈ opcodeTable,
    r.pattern.toNat = 4096 * r.opcode ∧ r.mask = BitVec.allOnes 16 <<< payloadBits r.opcode ∧ r.opcode < 10 := by
  decide

theorem div_mul_eq_iff {n op k : Nat} (hk : k ≤ 12) :
    n / 2 ^ k * 2 ^ k = 4096 * op ↔ n / 4096 = op ∧ n % 4096 < 2 ^ k := by
  interval_cases k <;> omega

theorem payloadBits_le (op : Nat) : payloadBits op ≤ 12 := by
  unfold payloadBits
  split <;> decide

/-- A row's match and mask ask for its `OP` and for clear must-be-zero bits. -/
theorem OpRow.selects_iff {r : OpRow} (hr : r ∈ opcodeTable) (w : Word) :
    w &&& r.mask = r.pattern ↔ w.toNat / 4096 = r.opcode ∧ w.toNat % 4096 < 2 ^ payloadBits r.opcode := by
  obtain ⟨hpattern, hmask, -⟩ := opcodeTable_rows r hr
  rw [hmask, ← BitVec.toNat_inj, toNat_and_highBits, hpattern, div_mul_eq_iff (payloadBits_le _)]

theorem opcodeRow_statement (i : Instr) : Laws.OpcodeRow.Statement i := by
  cases i with
  | nop => exact Laws.OpcodeRow.nop
  | index c => exact Laws.OpcodeRow.index c
  | lookup n => exact Laws.OpcodeRow.lookup n
  | locate g d => exact Laws.OpcodeRow.locate g d
  | renderAt c d => exact Laws.OpcodeRow.renderAt c d
  | putc c => exact Laws.OpcodeRow.putc c
  | resetBuf => exact Laws.OpcodeRow.resetBuf
  | clear => exact Laws.OpcodeRow.clear
  | read a => exact Laws.OpcodeRow.read a
  | sync => exact Laws.OpcodeRow.sync

theorem opcodeTable_mnemonic_iff :
    ∀ q ∈ opcodeTable, ∀ r ∈ opcodeTable, q.mnemonic = r.mnemonic ↔ q.opcode = r.opcode := by decide

/-- A row's mnemonic is that of the commands with its `OP`. -/
theorem Instr.mnemonic_eq_iff {r : OpRow} (hr : r ∈ opcodeTable) (i : Instr) :
    i.mnemonic = r.mnemonic ↔ i.opcode = r.opcode := by
  obtain ⟨q, hq, hname, hsel⟩ := opcodeRow_statement i
  have hop : i.opcode = q.opcode := by rw [← ((OpRow.selects_iff hq _).mp hsel).1, encode_opcode]
  rw [← hname, hop, opcodeTable_mnemonic_iff q hq r hr]

end Sys2Proof
end

section
/-! O1 to O7 and O11. What the decoder answers, and what a step does with the word presented. -/

namespace Sys2Proof.Machine

/-! ## Decoder, encoder and opcode map (R49 to R51, R56, R57) -/

/-- Settles O1: `decode_encode`, in range. -/
theorem decodeOfEncode : Obligations.DecodeOfEncode := fun _ => decode_encode_of_wf

/-- Settles O2: a word that decodes passes both tests, so it is the word of some command (`exists_encode_eq`). -/
theorem encodeOfDecode : Obligations.EncodeOfDecode := fun _ _ => decode_eq_cmd

/-- Settles O3: the row of the decoded command selects its word; a selected word is the word of a command with the row's
mnemonic, which is read back or out of range. -/
theorem opcodeMapSelectsTheCommand : Obligations.OpcodeMapSelectsTheCommand := by
  refine ⟨fun w i h => ?_, fun r hr w hsel => ?_⟩
  · rw [← (decode_eq_cmd h).2]
    exact opcodeRow_statement i
  · obtain ⟨hop, hz⟩ := (OpRow.selects_iff hr w).mp hsel
    obtain ⟨-, -, hlt⟩ := opcodeTable_rows r hr
    rw [← hop] at hz hlt
    obtain ⟨i, rfl⟩ := exists_encode_eq hlt hz
    have hname : i.mnemonic = r.mnemonic := (i.mnemonic_eq_iff hr).mpr (hop ▸ (encode_opcode i).symm)
    by_cases hwf : i.wf = true
    · exact .inl ⟨i, decode_encode_of_wf hwf, hname⟩
    · rcases Instr.not_wf_cases hwf with ⟨n, rfl, hn⟩ | ⟨g, d, rfl, hg⟩
      · refine .inr (.inl ⟨decode_encode_of_not_wf hwf, hname.symm, ?_⟩)
        rwa [encode_lookup_field]
      · refine .inr (.inr ⟨decode_encode_of_not_wf hwf, hname.symm, ?_⟩)
        rwa [encode_locate_seg]

/-- Settles O4: the word is `4096 * OP + payload`, from which each operand is read off. -/
theorem fieldsAreReadInPlace : Obligations.FieldsAreReadInPlace := by
  intro w
  refine ⟨fun c h => ?_, fun n h => ?_, fun g d h => ?_, fun c d h => ?_, fun c h => ?_, fun a h => ?_⟩ <;>
  · have := toNat_of_decode h
    simp only [Instr.opcode, Instr.payload] at this
    omega

/-! ## What a step does with the word presented -/

variable {s : State} {w : Word} {rest : List HostInput}

theorem step_decoded {i : Instr} (hmark : s.mark = none) (hp : s.port = .command w :: rest) (hd : decode w = .cmd i) :
    step s = exec i { s with port := rest } := by
  simp only [step_command hp, runWord, hmark, hd]

theorem step_refused {code : RefuseCode} (hmark : s.mark = none) (hp : s.port = .command w :: rest)
    (hd : decode w = .refuse code) : step s = .next { s with port := rest, mark := some (.refuse code w) } := by
  simp only [step_command hp, runWord, hmark, hd, State.raise]

/-- Settles O11. -/
theorem stepRunsTheDecodedCommand : Obligations.StepRunsTheDecodedCommand := fun _ _ _ _ => step_decoded

/-- Settles O5. -/
theorem unassignedOpcodeIsRefused : Obligations.UnassignedOpcodeIsRefused :=
  fun _ _ _ hmark hp hop => step_refused hmark hp (decode_of_opcode_ge hop)

/-- Settles O6: a word with the row's `OP` that the row does not select has a must-be-zero bit set. -/
theorem reservedBitsAreRefused : Obligations.ReservedBitsAreRefused := by
  intro s w rest hmark hp r hr hop hsel
  have hop : w.toNat / 4096 = r.opcode := hop.symm
  obtain ⟨-, -, hlt⟩ := opcodeTable_rows r hr
  refine step_refused hmark hp (decode_of_reserved (hop ▸ hlt) fun hz => ?_)
  exact hsel ((OpRow.selects_iff hr w).mpr ⟨hop, hop ▸ hz⟩)

/-- Settles O7: the words written out are those of `encode`. -/
theorem valueRangesAreRefused : Obligations.ValueRangesAreRefused := by
  refine ⟨fun s n rest hmark hp hn => ?_, fun s g d rest hmark hp hg => ?_, fun c => ?_, fun g d hg => ?_,
    fun c d => ?_, fun c => ?_, fun a => ?_⟩
  · exact step_refused hmark hp (decode_encode_of_not_wf (i := .lookup n) (by simpa [Instr.wf] using hn))
  · exact step_refused hmark hp (decode_encode_of_not_wf (i := .locate g d) (by simpa [Instr.wf] using hg))
  · exact decode_encode_of_wf (i := .index c) rfl
  · exact decode_encode_of_wf (i := .locate g d) (decide_eq_true hg)
  · exact decode_encode_of_wf (i := .renderAt c d) rfl
  · exact decode_encode_of_wf (i := .putc c) rfl
  · exact decode_encode_of_wf (i := .read a) rfl

end Sys2Proof.Machine
end

section
/-! O8. How many words each command has: those of one `OP` fill one interval, from its match on (R55). -/

namespace Sys2Proof.Machine

/-! ## Which payloads are in range (R54, R55) -/

/-- How many legal words each `OP` has (R55). -/
def legalCount : Nat → Nat
  | 0 => 1
  | 1 => 256
  | 2 => 96
  | 3 => 56
  | 4 => 1024
  | 5 => 256
  | 6 => 1
  | 7 => 1
  | 8 => 16
  | 9 => 1
  | _ => 0

/-- The two ranges of R54 cut the payload at one number: `LOOKUP` at 96, `LOCATE` at 4 * 14. -/
theorem wf_iff_payload_lt (i : Instr) : i.wf = true ↔ i.payload < legalCount i.opcode := by
  cases i <;> simp only [Instr.wf, Instr.payload, Instr.opcode, legalCount, decide_eq_true_eq, true_iff] <;> omega

theorem legalCount_le : ∀ op < 10, legalCount op ≤ 2 ^ payloadBits op := by decide

theorem legal_interval_le : ∀ op < 10, 4096 * op + legalCount op ≤ 65536 := by decide

/-- The words of a row's commands are an interval. -/
theorem decodes_to_row_iff {r : OpRow} (hr : r ∈ opcodeTable) (w : Word) :
    (∃ i, decode w = .cmd i ∧ i.mnemonic = r.mnemonic) ↔
      4096 * r.opcode ≤ w.toNat ∧ w.toNat < 4096 * r.opcode + legalCount r.opcode := by
  constructor
  · rintro ⟨i, hd, hname⟩
    obtain ⟨hwf, rfl⟩ := decode_eq_cmd hd
    have hp := (wf_iff_payload_lt i).mp hwf
    rw [encode_toNat, ← (i.mnemonic_eq_iff hr).mp hname]
    omega
  · rintro ⟨hge, hlt⟩
    obtain ⟨-, -, hop⟩ := opcodeTable_rows r hr
    have hle := legalCount_le r.opcode hop
    obtain ⟨i, hi, hp⟩ := Instr.exists_of_payload (p := w.toNat - 4096 * r.opcode) hop (by omega)
    have hw : encode i = w := BitVec.eq_of_toNat_eq (by rw [encode_toNat, hi, hp]; omega)
    have hwf : i.wf = true := (wf_iff_payload_lt i).mpr (by rw [hi, hp]; omega)
    exact ⟨i, hw ▸ decode_encode_of_wf hwf, (i.mnemonic_eq_iff hr).mpr hi⟩

/-! ## Counting -/

theorem decodeTableWord_eq_some_iff {n : Nat} (hn : n < 65536) (i : Instr) :
    decodeTableWord 16 n = some i ↔ decode (BitVec.ofNat 16 n) = .cmd i := by
  have hmod : n % 2 ^ 16 = n := Nat.mod_eq_of_lt hn
  rw [decodeTableWord, if_neg (by decide), hmod]
  cases decode (BitVec.ofNat 16 n) <;> simp

/-- What all words decode to, as `Obligations.LegalWordsCounted` lists it. -/
def legalCommands : List Instr := (List.range 65536).filterMap fun n => decodeTableWord 16 n

theorem count_interval {a c b : Nat} (h : a + c ≤ b) : Nat.count (fun n => a ≤ n ∧ n < a + c) b = c := by
  have hIco : {n ∈ Finset.range b | a ≤ n ∧ n < a + c} = Finset.Ico a (a + c) := by
    ext n
    simp only [Finset.mem_filter, Finset.mem_range, Finset.mem_Ico]
    omega
  rw [Nat.count_eq_card_filter_range, hIco, Nat.card_Ico, Nat.add_sub_cancel_left]

theorem decodeTableWord_row_iff {r : OpRow} (hr : r ∈ opcodeTable) {n : Nat} (hn : n < 65536) :
    ((decodeTableWord 16 n).map fun i => i.mnemonic == r.mnemonic).getD false = true ↔
      4096 * r.opcode ≤ n ∧ n < 4096 * r.opcode + legalCount r.opcode := by
  have hw : (BitVec.ofNat 16 n).toNat = n := Nat.mod_eq_of_lt hn
  have hrow := decodes_to_row_iff hr (BitVec.ofNat 16 n)
  simp only [hw, ← decodeTableWord_eq_some_iff hn] at hrow
  rw [← hrow]
  cases decodeTableWord 16 n <;> simp

theorem length_filter_mnemonic {r : OpRow} (hr : r ∈ opcodeTable) :
    (legalCommands.filter fun i => i.mnemonic == r.mnemonic).length = legalCount r.opcode := by
  obtain ⟨-, -, hop⟩ := opcodeTable_rows r hr
  rw [← List.countP_eq_length_filter, legalCommands, List.countP_filterMap]
  calc _ = (List.range 65536).countP
          (fun n => decide (4096 * r.opcode ≤ n ∧ n < 4096 * r.opcode + legalCount r.opcode)) :=
        List.countP_congr fun n hn => by
          rw [decodeTableWord_row_iff hr (List.mem_range.mp hn), decide_eq_true_iff]
    _ = legalCount r.opcode := count_interval (legal_interval_le r.opcode hop)

/-- Every command has the mnemonic of exactly one row. -/
theorem length_eq_sum_mnemonics (l : List Instr) : l.length =
    (opcodeTable.map fun r => (l.filter fun i => i.mnemonic == r.mnemonic).length).sum := by
  induction l with
  | nil => rfl
  | cons i l ih =>
    cases i <;> simp [opcodeTable, Instr.mnemonic] at ih ⊢ <;> omega

theorem legalCount_rows : opcodeTable.map (fun r => (r.mnemonic, legalCount r.opcode)) =
    [("NOP", 1), ("INDEX", 256), ("LOOKUP", 96), ("LOCATE", 56), ("RENDER_AT", 1024), ("PUTC", 256), ("RESET_BUF", 1),
      ("CLEAR", 1), ("READ", 16), ("SYNC", 1)] := rfl

/-- Settles O8: `length_filter_mnemonic` for each row, and their sum. -/
theorem legalWordsCounted : Obligations.LegalWordsCounted := by
  refine ⟨?_, ?_⟩
  · calc legalCommands.length
      _ = (opcodeTable.map fun r => (legalCommands.filter fun i => i.mnemonic == r.mnemonic).length).sum :=
        length_eq_sum_mnemonics _
      _ = (opcodeTable.map fun r => legalCount r.opcode).sum :=
        congrArg List.sum (List.map_congr_left fun r hr => length_filter_mnemonic hr)
      _ = 1708 := by decide
  · rw [← legalCount_rows, List.all_map, List.all_eq_true]
    exact fun r hr => beq_iff_eq.mpr (length_filter_mnemonic hr)

end Sys2Proof.Machine
end

section
/-! O9 and O10. The assembler: every operand it reads is in range (R58), so every command of a line is well formed. -/

namespace Sys2Proof.Machine

/-- Settles O9: the decoder and the assembler run on the table of R60. -/
theorem workedEncodings : Obligations.WorkedEncodings := by
  unfold Obligations.WorkedEncodings
  decide

/-! ## Operands (R58) -/

theorem asNumber_lt {bound : Nat} {t : Tok} {n : Nat} (h : asNumber bound t = some n) : n < bound := by
  cases t with
  | word cs => simpa using (Option.filter_eq_some_iff.mp h).2
  | _ => cases h

/-- A segment number is in 0..13, as a letter A..N or as a number (R58). -/
theorem asSegment_lt {t : Tok} {g : BitVec 4} (h : asSegment t = some g) : g.toNat < 14 := by
  have hnumber {t : Tok} (h : (asNumber 14 t).map (BitVec.ofNat 4) = some g) : g.toNat < 14 := by
    obtain ⟨n, hn, rfl⟩ := Option.map_eq_some_iff.mp h
    exact Nat.lt_of_le_of_lt (Nat.mod_le n _) (asNumber_lt hn)
  unfold asSegment at h
  split at h
  · split at h
    · rename_i c hc
      cases h
      have hN : c.toNat ≤ 78 := of_decide_eq_true (Bool.and_eq_true_iff.mp hc).2
      exact Nat.lt_of_le_of_lt (Nat.mod_le _ _) (show c.toNat - 65 < 14 by omega)
    · exact hnumber h
  · exact hnumber h

/-! ## Lines (R57, R59) -/

/-- What a line is read as, if it is accepted, holds well-formed commands only. -/
def OnlyWf (line : Option (List Instr)) : Prop := ∀ is, line = some is → ∀ i ∈ is, i.wf = true

theorem OnlyWf.rejected : OnlyWf none := nofun

theorem OnlyWf.accepted {is : List Instr} (h : ∀ i ∈ is, i.wf = true) : OnlyWf (some is) := by
  rintro _ ⟨⟩
  exact h

/-- One command, read or not. -/
theorem OnlyWf.single {o : Option Instr} (h : ∀ i, o = some i → i.wf = true) : OnlyWf (o.map ([·])) := by
  cases o with
  | none => exact .rejected
  | some i => exact .accepted (by simpa using h i rfl)

theorem OnlyWf.ite {p : Prop} [Decidable p] {a b : Option (List Instr)} (ha : OnlyWf a) (hb : OnlyWf b) :
    OnlyWf (if p then a else b) := by
  split
  · exact ha
  · exact hb

theorem asmF0_wf {i : Instr} (hi : i.wf = true) (args : List Tok) : OnlyWf (asmF0 i args) := by
  unfold asmF0
  split
  · exact .accepted (by simpa using hi)
  · exact .rejected

theorem asmOne_wf {f : Tok → Option Instr} (hf : ∀ t i, f t = some i → i.wf = true) (args : List Tok) :
    OnlyWf (asmOne f args) := by
  unfold asmOne
  split
  · exact .single (hf _)
  · exact .rejected

theorem asmTwo_wf {f : Tok → Tok → Option Instr} (hf : ∀ t u i, f t u = some i → i.wf = true) (args : List Tok) :
    OnlyWf (asmTwo f args) := by
  unfold asmTwo
  split
  · exact .single (hf _ _)
  · exact .rejected

/-- A command made of an operand is in range when every value the operand can have is. -/
theorem wf_of_map {α : Type} {o : Option α} {f : α → Instr} {i : Instr} (h : o.map f = some i)
    (hf : ∀ a, o = some a → (f a).wf = true) : i.wf = true := by
  obtain ⟨a, ha, rfl⟩ := Option.map_eq_some_iff.mp h
  exact hf a ha

theorem lookup_wf {t : Tok} {n : Nat} (h : asNumber 96 t = some n) : (Instr.lookup (.ofNat 7 n)).wf = true :=
  decide_eq_true (Nat.lt_of_le_of_lt (Nat.mod_le n _) (asNumber_lt h))

theorem locate_wf {t : Tok} {g : BitVec 4} (h : asSegment t = some g) (d : BitVec 2) :
    (Instr.locate g d).wf = true := decide_eq_true (asSegment_lt h)

theorem writeExpand_wf (bs : List Byte) : ∀ i ∈ writeExpand bs, i.wf = true := by
  intro i hi
  simp only [writeExpand, List.mem_cons, List.mem_append, List.mem_map, List.not_mem_nil, or_false] at hi
  rcases hi with rfl | ⟨c, -, rfl⟩ | rfl <;> rfl

theorem write_wf (args : List Tok) : OnlyWf ((asBytes args).map writeExpand) := by
  intro is h
  obtain ⟨bs, -, rfl⟩ := Option.map_eq_some_iff.mp h
  exact writeExpand_wf bs

/-- A line's commands are in range, whichever mnemonic it has. -/
theorem parseLine_wf (ts : List Tok) : OnlyWf (parseLine ts) := by
  unfold parseLine
  split
  case h_1 => exact .accepted (by simp)
  case h_2 m args =>
    refine .ite ?nop <| .ite ?index <| .ite ?lookup <| .ite ?locate <| .ite ?renderAt <| .ite ?putc <|
      .ite ?resetBuf <| .ite ?clear <| .ite ?read <| .ite ?sync <| .ite ?write .rejected
    case nop | resetBuf | clear | sync => exact asmF0_wf rfl args
    case index | putc | read => exact asmOne_wf (fun t i h => wf_of_map h fun _ _ => rfl) args
    case lookup => exact asmOne_wf (fun t i h => wf_of_map h fun _ hn => lookup_wf hn) args
    case locate =>
      refine asmTwo_wf (fun t u i h => ?_) args
      obtain ⟨g, hg, h⟩ := Option.bind_eq_some_iff.mp h
      exact wf_of_map h fun d _ => locate_wf hg d
    case renderAt =>
      refine asmTwo_wf (fun t u i h => ?_) args
      obtain ⟨c, -, h⟩ := Option.bind_eq_some_iff.mp h
      exact wf_of_map h fun _ _ => rfl
    case write => exact write_wf args
  case h_3 => exact .rejected

/-- Settles O10: the words of a line are the words of well-formed commands, which `decode` reads back. -/
theorem assemblerNeverEncodesARefusedWord : Obligations.AssemblerNeverEncodesARefusedWord := by
  intro line ws h w hw
  obtain ⟨is, his, rfl⟩ := Option.map_eq_some_iff.mp h
  obtain ⟨ts, -, hparse⟩ := Option.bind_eq_some_iff.mp his
  obtain ⟨i, hi, rfl⟩ := List.mem_map.mp hw
  exact ⟨i, decode_encode_of_wf (parseLine_wf ts is hparse i hi)⟩

end Sys2Proof.Machine
end

section
/-! O23 to O27. The index function, the classes of characters, and what `INDEX` and `LOOKUP` answer. -/

namespace Sys2Proof.Machine

/-! ## The index function (R63, R70) -/

theorem idx_val (c : Byte) : (idx c).val =
    if c = 0x20 then 0 else if 0x21 ≤ c ∧ c ≤ 0x7E then (c.toNat - 0x21) + 1 else 95 := by
  rw [idx, apply_ite Fin.val, apply_dite Fin.val]
  rfl

theorem idx_val_of_printable {c : Byte} (hlo : 0x20 ≤ c) (hhi : c ≤ 0x7E) : (idx c).val = c.toNat - 0x20 := by
  rw [idx_val]
  split_ifs <;> bv_omega

theorem idx_val_of_unknown {c : Byte} (h : c ≤ 0x1F ∨ 0x7F ≤ c) : (idx c).val = 95 := by
  rw [idx_val, if_neg (by bv_omega), if_neg (by bv_omega)]

theorem printable_or_unknown (c : Byte) : (0x20 ≤ c ∧ c ≤ 0x7E) ∨ (c ≤ 0x1F ∨ 0x7F ≤ c) := by bv_omega

theorem idx_eq_space (c : Byte) : idx c = idxSpace ↔ c = 0x20 := by
  rw [Fin.ext_iff]
  change _ = 0 ↔ _
  rcases printable_or_unknown c with ⟨hlo, hhi⟩ | h
  · rw [idx_val_of_printable hlo hhi]
    bv_omega
  · rw [idx_val_of_unknown h]
    bv_omega

theorem idx_eq_unknown (c : Byte) : idx c = idxUnknown ↔ c ≤ 0x1F ∨ 0x7F ≤ c := by
  rw [Fin.ext_iff]
  change _ = 95 ↔ _
  rcases printable_or_unknown c with ⟨hlo, hhi⟩ | h
  · rw [idx_val_of_printable hlo hhi]
    bv_omega
  · exact iff_of_true (idx_val_of_unknown h) h

/-- Settles O23: by `idx_val`; on the printable bytes its first two cases are one subtraction. -/
theorem indexFunction : Obligations.IndexFunction := by
  refine fun c => ⟨fun h => ?_, fun ⟨hlo, hhi⟩ => ?_, fun h => ?_, fun ⟨hlo, hhi⟩ => idx_val_of_printable hlo hhi⟩
  · rw [idx_val, if_pos h]
  · rw [idx_val, if_neg (by bv_omega), if_pos ⟨hlo, hhi⟩]
  · exact idx_val_of_unknown (by bv_omega)

theorem enc_of_idx {cfg : Config} {c : Byte} {n : Fin 96} (h : idx c = n) : enc cfg c = cfg.segTable[n] := by
  subst h
  rfl

/-- Settles O25: the space and the UNKNOWN bytes read the two fixed entries of R67. -/
theorem knownMasks : Obligations.KnownMasks := by
  refine ⟨fun _ _ => rfl, fun cfg ⟨hspace, hunknown, _⟩ => ⟨?_, fun c hc => ?_⟩⟩
  · exact (enc_of_idx ((idx_eq_space 0x20).mpr rfl)).trans hspace
  · exact (enc_of_idx ((idx_eq_unknown c).mpr hc)).trans hunknown

/-! ## The classes (R64, R65) -/

/-- The class is decided on the byte as on its index. -/
theorem charClass_eq (c : Byte) : charClass c =
    if c = 0x2E then .decimal else if c = 0x3A then .colon else if c = 0x20 then .space
    else if c ≤ 0x1F ∨ 0x7F ≤ c then .unknown else .glyph := by
  simp only [charClass, idx_eq_decimal, idx_eq_colon, idx_eq_space, idx_eq_unknown]
  rfl

theorem charClass_iff (c : Byte) :
    (charClass c = .space ↔ c = 0x20) ∧ (charClass c = .decimal ↔ c = 0x2E) ∧ (charClass c = .colon ↔ c = 0x3A) ∧
      (charClass c = .glyph ↔ 0x21 ≤ c ∧ c ≤ 0x7E ∧ c ≠ 0x2E ∧ c ≠ 0x3A) ∧
      (charClass c = .unknown ↔ c ≤ 0x1F ∨ 0x7F ≤ c) := by
  rw [charClass_eq]
  split_ifs with hdec hcol hspace hunknown
  · simp [hdec]
  · simp [hcol]
  · simp [hspace]
  · exact ⟨iff_of_false nofun hspace, iff_of_false nofun hdec, iff_of_false nofun hcol,
      iff_of_false nofun (by bv_omega), iff_of_true rfl hunknown⟩
  · exact ⟨iff_of_false nofun hspace, iff_of_false nofun hdec, iff_of_false nofun hcol,
      iff_of_true rfl (by bv_omega), iff_of_false nofun hunknown⟩

/-- The bytes of each class, as numbers (R64). -/
def classBytes : CharClass → Finset Nat
  | .space => {0x20}
  | .decimal => {0x2E}
  | .colon => {0x3A}
  | .glyph => Finset.Ico 0x21 0x7F \ {0x2E, 0x3A}
  | .unknown => Finset.range 256 \ Finset.Ico 0x20 0x7F

theorem mem_classBytes (k : CharClass) (n : Nat) : n ∈ classBytes k ↔ n < 256 ∧ charClass (BitVec.ofNat 8 n) = k := by
  obtain ⟨hspace, hdec, hcol, hglyph, hunknown⟩ := charClass_iff (BitVec.ofNat 8 n)
  cases k <;> simp only [classBytes, *, Finset.mem_singleton, Finset.mem_sdiff, Finset.mem_insert, Finset.mem_Ico,
    Finset.mem_range] <;> bv_omega

theorem card_classBytes :
    [CharClass.space, .decimal, .colon, .glyph, .unknown].map (fun k => (classBytes k).card) = [1, 1, 1, 92, 161] := by
  have hglyph : (classBytes .glyph).card = 92 := Finset.card_sdiff_of_subset (by decide)
  have hunknown : (classBytes .unknown).card = 161 := by
    rw [classBytes, Finset.card_sdiff_of_subset (by grind), Nat.card_Ico, Finset.card_range]
  simp only [List.map_cons, List.map_nil, hglyph, hunknown]
  rfl

theorem length_filter_charClass (k : CharClass) :
    ((List.range 256).filter fun n => charClass (BitVec.ofNat 8 n) == k).length = (classBytes k).card := by
  have hbytes : {n ∈ Finset.range 256 | (charClass (BitVec.ofNat 8 n) == k) = true} = classBytes k := by
    ext n
    simp [mem_classBytes]
  rw [← hbytes, ← Nat.count_eq_card_filter_range, ← List.countP_eq_length_filter, Nat.count]
  exact List.countP_congr fun n _ => by simp

theorem idx_ofNat_printable {a : Nat} (ha : a < 0x5F) : (idx (BitVec.ofNat 8 (0x20 + a))).val = a := by
  rw [idx_val_of_printable (by bv_omega) (by bv_omega)]
  bv_omega

/-- Settles O24: by `charClass_iff`, and on 0x20..0x7E the index gives the byte back (`idx_ofNat_printable`). -/
theorem indexClasses : Obligations.IndexClasses := by
  refine ⟨fun c => ?_, (idx_eq_space 0x20).mpr rfl, (idx_eq_decimal 0x2E).mpr rfl, (idx_eq_colon 0x3A).mpr rfl, ?_,
    fun a ha b hb hab => ?_⟩
  · obtain ⟨hspace, hdec, hcol, hglyph, hunknown⟩ := charClass_iff c
    refine ⟨hspace, hdec, hcol, hglyph, hunknown, fun h => (idx_eq_unknown c).mpr (hunknown.mp h), fun h => ?_⟩
    obtain ⟨hlo, hhi, hne, hne'⟩ := hglyph.mp h
    have hval := idx_val_of_printable (by bv_omega) hhi
    exact ⟨by bv_omega, by bv_omega, (idx_eq_decimal c).not.mpr hne, (idx_eq_colon c).not.mpr hne'⟩
  · simpa only [length_filter_charClass] using card_classBytes
  · rw [← idx_ofNat_printable (List.mem_range.mp ha), hab, idx_ofNat_printable (List.mem_range.mp hb)]

/-! ## `INDEX` and `LOOKUP` (R71, R72) -/

theorem encode_and_mask {r : OpRow} (hr : r ∈ opcodeTable) {i : Instr} (h : i.opcode = r.opcode) :
    encode i &&& r.mask = r.pattern := by
  refine (OpRow.selects_iff hr _).mpr ⟨(encode_opcode i).trans h, ?_⟩
  rw [encode_payload, ← h]
  exact i.payload_lt

/-- Settles O26: `INDEX` is quiet, and the index fits in the word. -/
theorem indexResult : Obligations.IndexResult := by
  refine fun c s => ⟨encode_and_mask (r := ⟨"INDEX", 0x1000, 0xFF00⟩) (by decide) rfl, _,
    (Quiet.index c s).exec_eq, ?_⟩
  rw [BitVec.toNat_ofNat, Nat.mod_eq_of_lt (by omega), idx_val]

theorem exec_lookup_eq {n : BitVec 7} {m : Fin 96} (h : n.toNat = m.val) (s : State) :
    exec (.lookup n) s = .next { s with outputs := s.outputs ++ [.value (s.config.segTable[m].setWidth 16)] } := by
  obtain ⟨m, hm⟩ := m
  obtain rfl : n.toNat = m := h
  exact (Quiet.lookup n s hm).exec_eq

/-- Settles O27: `LOOKUP` in range is `exec_lookup_eq`, out of range it is stopped; entries 0 and 95 are those of R67. -/
theorem lookupResult : Obligations.LookupResult := by
  refine ⟨fun n s => ⟨encode_and_mask (r := ⟨"LOOKUP", 0x2000, 0xFF80⟩) (by decide) rfl, exec_lookup_eq ?_ s⟩,
    fun n s hn => (Stopped.lookup n s hn).exec_eq, fun s ⟨hspace, hunknown, _⟩ => ⟨?_, ?_⟩⟩
  · exact Nat.mod_eq_of_lt (by omega)
  · rw [exec_lookup_eq (n := 0) (m := idxSpace) rfl, hspace]
    rfl
  · rw [exec_lookup_eq (n := 95) (m := idxUnknown) rfl, hunknown]
    rfl

end Sys2Proof.Machine
end

section
/-! O28. No render reads the table entries 14 and 26, so only `LOOKUP` of the one or the other can tell what they hold. -/

namespace Sys2Proof.Machine

variable {i : Instr} {s t : State} {cfg : Config}

/-- A modifier's render reads its flag's location, any other character's an entry other than 14 and 26 (R86). -/
theorem renderInto_of_sameButModifierEntries {cfg' : Config} (h : sameButModifierEntries cfg cfg') (c : Byte)
    (d : BitVec 2) (m : Memory) : renderInto cfg c d m = renderInto cfg' c d m := by
  obtain ⟨hdecLoc, hcolLoc, hentry⟩ := h
  unfold renderInto
  split_ifs with hdec hcol
  · rw [setDecFlag, setDecFlag, hdecLoc]
  · rw [setColFlag, setColFlag, hcolLoc]
  · rw [hentry (idx c) hdec hcol]

theorem State.render_setConfig (h : sameButModifierEntries s.config cfg) (c : Byte) (d : BitVec 2) :
    { s with config := cfg }.render c d = { s.render c d with config := cfg } := by
  simp only [State.render, renderInto_of_sameButModifierEntries h]

theorem Quiet.setConfig {o : Output} (h : Quiet i s o) (hcfg : sameButModifierEntries s.config cfg)
    (hdec : i ≠ .lookup 14) (hcol : i ≠ .lookup 26) : Quiet i { s with config := cfg } o := by
  cases h with
  | nop => exact .nop _
  | index c => exact .index c _
  | lookup n _ hn =>
    obtain ⟨-, -, hentry⟩ := hcfg
    have hne {k : BitVec 7} (hk : Instr.lookup n ≠ .lookup k) : n.toNat ≠ k.toNat :=
      fun h => hk (congrArg Instr.lookup (BitVec.eq_of_toNat_eq h))
    have hentry : s.config.segTable[n.toNat] = cfg.segTable[n.toNat] :=
      hentry ⟨n.toNat, hn⟩ (Fin.ne_of_val_ne (hne (k := 14) hdec)) (Fin.ne_of_val_ne (hne (k := 26) hcol))
    exact hentry ▸ .lookup n { s with config := cfg } hn
  | locate g d _ hg => exact .locate g d _ hg
  | read a _ hinit => exact .read a { s with config := cfg } hinit
  | sync _ hinit => exact .sync { s with config := cfg } hinit

theorem Ran.setConfig (h : Ran i s t) (hcfg : sameButModifierEntries s.config cfg)
    (hdec : i ≠ .lookup 14) (hcol : i ≠ .lookup 26) : Ran i { s with config := cfg } { t with config := cfg } := by
  cases h with
  | out o hi ht => exact .out o (hi.setConfig hcfg hdec hcol) (by rw [ht])
  | zero o hi ht => exact .zero o hi (by rw [ht]; rfl)
  | render c d hi hinit ht => exact .render c d hi hinit (by rw [ht, State.render_setConfig hcfg])
  | advance c hi hc hinit hd ht => exact .advance c hi hc hinit hd (by rw [ht, State.render_setConfig hcfg])

/-- Settles O28: a command is stopped for reasons other than the table, and runs as `Ran.setConfig` has it. -/
theorem modifierEntriesReachOnlyLookup : Obligations.ModifierEntriesReachOnlyLookup := by
  intro i s t cfg hcfg hdec hcol h
  rcases exec_cases h with ⟨r, hr, rfl⟩ | hran
  · exact (hr.congr (t := { s with config := cfg }) rfl fun _ => rfl).exec_eq
  · exact (hran.setConfig hcfg hdec hcol).exec_eq

end Sys2Proof.Machine
end

section
/-! O29 to O31. The mapper in closed form: the byte is `comOf` of the segment, the bit is `rowOf` of segment and digit
(spec/41_locate.md R73 to R80). -/

namespace Sys2Proof.Machine

/-! ## The closed form (R77) -/

theorem comOf_eq : ∀ g : Fin 14, comOf g.val = [0, 1, 2, 3, 4, 5, 6, 1, 0, 2, 3, 4, 5, 6].getD g.val 0 := by decide

theorem comOf_lt : ∀ g : Fin 14, comOf g.val < 7 := by decide

theorem rowOf_eq (n : Nat) (d : BitVec 2) : rowOf n d.toNat = d.toNat + 4 * if n ≥ 7 then 1 else 0 := by
  dsimp only [rowOf]
  split_ifs <;> omega

theorem rowOf_lt (n : Nat) (d : BitVec 2) : rowOf n d.toNat < 8 := by
  rw [rowOf_eq]
  split_ifs <;> omega

/-- The rows stop at 7, so the branch of R76 for rows 8 to 15 is never taken. -/
theorem locate_eq (g : Fin 14) (d : BitVec 2) :
    locate g d = ⟨BitVec.ofNat 4 (2 * comOf g.val), BitVec.ofNat 3 (rowOf g.val d.toNat)⟩ := by
  rw [locate, if_neg (Nat.not_lt.mpr (Nat.le_of_lt_succ (rowOf_lt _ _))), Nat.mul_comm]

theorem locate_addr_toNat (g : Fin 14) (d : BitVec 2) : (locate g d).addr.toNat = 2 * comOf g.val := by
  have := comOf_lt g
  rw [locate_eq]
  exact Nat.mod_eq_of_lt (by omega)

theorem locate_bit_toNat (g : Fin 14) (d : BitVec 2) : (locate g d).bit.toNat = rowOf g.val d.toNat := by
  rw [locate_eq]
  exact Nat.mod_eq_of_lt (rowOf_lt _ _)

/-- The segments whose digits are the bits 4..7 of bytes 0, 2, …, 12: I, H, J, K, L, M, N (R74, R77). -/
def upperSegment (k : Fin 7) : Fin 14 := [8, 7, 9, 10, 11, 12, 13].getD k.val 0

/-- Bits 0..3 of byte `2 * k` are segment `k` (R77). -/
theorem comOf_lower : ∀ k : Fin 7, comOf k.val = k.val := by decide

theorem comOf_upperSegment : ∀ k : Fin 7, comOf (upperSegment k).val = k.val := by decide

theorem upperSegment_ge : ∀ k : Fin 7, (upperSegment k).val ≥ 7 := by decide

theorem locate_lower (k : Fin 7) (d : BitVec 2) :
    locate ⟨k.val, by omega⟩ d = ⟨BitVec.ofNat 4 (2 * k.val), BitVec.ofNat 3 d.toNat⟩ := by
  rw [locate_eq, comOf_lower, rowOf_eq, if_neg (Nat.not_le.mpr k.isLt), Nat.mul_zero, Nat.add_zero]

theorem locate_upperSegment (k : Fin 7) (d : BitVec 2) :
    locate (upperSegment k) d = ⟨BitVec.ofNat 4 (2 * k.val), BitVec.ofNat 3 (d.toNat + 4)⟩ := by
  rw [locate_eq, comOf_upperSegment, rowOf_eq, if_pos (upperSegment_ge k)]

/-- Settles O29: `comOf` and `rowOf` are the closed form; byte `2 * k` holds segment `k` and `upperSegment k`. -/
theorem locateClosedForm : Obligations.LocateClosedForm := by
  refine ⟨fun g d => ⟨?_, ?_⟩, fun k d => ?_⟩
  · rw [locate_addr_toNat, comOf_eq]
  · rw [locate_bit_toNat, rowOf_eq]
  · have hd : (BitVec.ofNat 2 d.val).toNat = d.val := Nat.mod_eq_of_lt d.isLt
    have hlower := locate_lower k (BitVec.ofNat 2 d.val)
    have hupper := locate_upperSegment k (BitVec.ofNat 2 d.val)
    rw [hd] at hlower hupper
    exact ⟨hlower, hupper⟩

/-! ## The mapper is a bijection onto the segment region (R79) -/

/-- A byte's two segments are told apart by the half of the byte that they are in. -/
theorem segment_eq_of_comOf :
    ∀ g g' : Fin 14, comOf g.val = comOf g'.val → (g.val ≥ 7 ↔ g'.val ≥ 7) → g = g' := by decide

theorem locate_injective {g g' : Fin 14} {d d' : BitVec 2} (h : locate g d = locate g' d') : g = g' ∧ d = d' := by
  have hcom : comOf g.val = comOf g'.val := by
    have haddr := congrArg (·.addr.toNat) h
    simpa only [locate_addr_toNat, Nat.mul_right_inj two_ne_zero] using haddr
  have hrow : rowOf g.val d.toNat = rowOf g'.val d'.toNat := by
    simpa only [locate_bit_toNat] using congrArg (·.bit.toNat) h
  rw [rowOf_eq, rowOf_eq] at hrow
  exact ⟨segment_eq_of_comOf g g' hcom (by split_ifs at hrow <;> omega),
    BitVec.eq_of_toNat_eq (by split_ifs at hrow <;> omega)⟩

/-- The address gives the byte, bit 2 of the bit number the half of it, and the other two bits the digit. -/
theorem exists_locate_eq {a : Addr} (heven : a.toNat % 2 = 0) (hle : a.toNat ≤ 12) (b : BitVec 3) :
    ∃ g d, locate g d = ⟨a, b⟩ := by
  obtain ⟨k, rfl⟩ : ∃ k : Fin 7, BitVec.ofNat 4 (2 * k.val) = a :=
    ⟨⟨a.toNat / 2, by omega⟩, by bv_omega⟩
  rcases Nat.lt_or_ge b.toNat 4 with hb | hb
  · refine ⟨⟨k.val, by omega⟩, .ofNatLT b.toNat hb, (locate_lower k _).trans ?_⟩
    simp
  · refine ⟨upperSegment k, .ofNatLT (b.toNat - 4) (by omega), (locate_upperSegment k _).trans ?_⟩
    simp [Nat.sub_add_cancel hb]

/-- Settles O30: by `locate_injective` and `exists_locate_eq`; locations with one address and one bit are equal. -/
theorem locateIsABijectionOntoTheRegion : Obligations.LocateIsABijectionOntoTheRegion := by
  refine ⟨fun _ _ _ _ => locate_injective, fun g d => ?_,
    fun l heven hle => exists_locate_eq heven hle l.bit, fun g g' d d' hne haddr hbit => ?_⟩
  · simpa [Loc.inRegion] using locate_inRegion g d
  · exact hne (locate_injective (congrArg₂ Loc.mk haddr hbit)).1

/-! ## `LOCATE` (R80) -/

theorem locValue_toNat (l : Loc) : (locValue l).toNat = l.addr.toNat * 8 + l.bit.toNat := by
  rw [locValue, BitVec.toNat_setWidth_of_le (by decide), BitVec.toNat_append,
    ← Nat.shiftLeft_add_eq_or_of_lt l.bit.isLt, Nat.shiftLeft_eq]

theorem exec_locate_eq {n : BitVec 4} {g : Fin 14} (h : n.toNat = g.val) (d : BitVec 2) (s : State) :
    exec (.locate n d) s = .next { s with outputs := s.outputs ++ [.value (locValue (locate g d))] } := by
  obtain ⟨g, hg⟩ := g
  obtain rfl : n.toNat = g := h
  exact (Quiet.locate n d s hg).exec_eq

/-- Settles O31: `LOCATE` in range is `exec_locate_eq`, out of range it is stopped. -/
theorem locateResult : Obligations.LocateResult := by
  refine ⟨fun g d s => ⟨encode_and_mask (r := ⟨"LOCATE", 0x3000, 0xFFC0⟩) (by decide) rfl, _,
    exec_locate_eq ?_ d s, locValue_toNat _⟩, fun g d s hg => (Stopped.locate g d s hg).exec_eq⟩
  exact Nat.mod_eq_of_lt (by omega)

end Sys2Proof.Machine
end

section
/-! O32 to O35 and O37. The renderer: what `RENDER_AT` and `PUTC` leave in the shadow RAM, byte by byte and bit by bit
(spec/42_render.md R81 to R89). -/

namespace Sys2Proof.Machine

variable {s : State} {cfg : Config} {m : Memory}

/-! ## Bytes -/

/-- A byte whose bits are those it had before and those of `v` is the OR of the two. -/
theorem readByte_eq_or_of_bitAt {m' : Memory} {a : Addr} {v : Byte}
    (h : ∀ b, bitAt m' ⟨a, b⟩ = true ↔ bitAt m ⟨a, b⟩ = true ∨ v.getLsbD b.toNat = true) :
    readByte m' a = readByte m a ||| v := by
  refine BitVec.eq_of_getLsbD_eq fun i hi => ?_
  have hbit := h (BitVec.ofNat 3 i)
  rw [bitAt, bitAt, BitVec.toNat_ofNat, Nat.mod_eq_of_lt hi] at hbit
  rw [Bool.eq_iff_iff, BitVec.getLsbD_or, Bool.or_eq_true, hbit]

theorem otherBytesKept_renderInto (cfg : Config) (c : Byte) (d : BitVec 2) (hm : m.wf) :
    otherBytesKept cfg c d m (renderInto cfg c d m) := by
  refine fun a hdark => readByte_eq_of_bitAt a fun b => ?_
  rw [Bool.eq_iff_iff, bitAt_renderInto cfg c d hm]
  exact or_iff_left fun hlit => hdark _ hlit rfl

/-- What a render leaves in the shadow RAM (R81). -/
theorem renderInto_spec (cfg : Config) (c : Byte) (d : BitVec 2) (hm : m.wf) :
    (renderInto cfg c d m).wf ∧
      (∀ l, bitAt (renderInto cfg c d m) l = true ↔ bitAt m l = true ∨ lights cfg c d l) ∧
      otherBytesKept cfg c d m (renderInto cfg c d m) :=
  ⟨renderInto_wf cfg c d hm, bitAt_renderInto cfg c d hm, otherBytesKept_renderInto cfg c d hm⟩

/-! ## `RENDER_AT` (R85, R87) -/

/-- Settles O32: by `renderInto_spec`; with `INIT = 0` the command is stopped. -/
theorem renderAtResult : Obligations.RenderAtResult :=
  ⟨fun c d => encode_and_mask (r := ⟨"RENDER_AT", 0x4000, 0xFC00⟩) (by decide) rfl,
    fun c d s hinit hm => ⟨_, exec_renderAt_eq c d hinit, renderInto_spec s.config c d hm⟩,
    fun c d s hinit => (Stopped.renderAt c d s hinit).exec_eq⟩

/-- Settles O35: each of the two renders adds what its character lights (`bitAt_renderInto`). -/
theorem rendersAccumulate : Obligations.RendersAccumulate := by
  intro c c' d s t u hinit hm ht hu l
  cases ht.symm.trans (exec_renderAt_eq c d hinit)
  cases hu.symm.trans (exec_renderAt_eq c' d hinit)
  simp only [State.render_shadow, State.render_config, bitAt_renderInto _ _ _ (renderInto_wf _ _ _ hm),
    bitAt_renderInto _ _ _ hm, or_assoc]

/-! ## `PUTC` (R88, R89) -/

theorem lights_modifier {c : Byte} (hc : c = 0x2E ∨ c = 0x3A) (d : BitVec 2) (l : Loc) :
    lights cfg c d l ↔ l = if c = 0x2E then cfg.decLoc else cfg.colLoc := by
  rcases hc with rfl | rfl <;> rfl

theorem lights_ordinary {c : Byte} (hdec : c ≠ 0x2E) (hcol : c ≠ 0x3A) (d : BitVec 2) (l : Loc) :
    lights cfg c d l ↔ inImage (enc cfg c) d l :=
  (iff_of_eq (if_neg hdec)).trans (iff_of_eq (if_neg hcol))

theorem isModifier_eq_false {c : Byte} (hdec : c ≠ 0x2E) (hcol : c ≠ 0x3A) : isModifier c = false := by
  rw [Bool.eq_false_iff, Ne, isModifier_iff]
  exact not_or.mpr ⟨hdec, hcol⟩

/-- Settles O33: the four ways `PUTC` ends; what it renders is `renderInto_spec`. -/
theorem putcResult : Obligations.PutcResult := by
  refine ⟨fun c => encode_and_mask (r := ⟨"PUTC", 0x5000, 0xFF00⟩) (by decide) rfl,
    fun c s hc hinit hm => ?modifier, fun c s hdec hcol hinit hd hm => ?ordinary,
    fun c s hdec hcol hinit hd => (Stopped.full c s hinit (isModifier_eq_false hdec hcol) hd).exec_eq,
    fun c s hinit => (Stopped.putc c s hinit).exec_eq⟩
  case modifier =>
    obtain ⟨hwf, hbits, hkept⟩ := renderInto_spec s.config c 0 hm
    simp only [lights_modifier hc] at hbits
    exact ⟨_, exec_putc_modifier_eq hinit ((isModifier_iff c).mpr hc), hwf, hbits, hkept⟩
  case ordinary =>
    obtain ⟨hwf, hbits, hkept⟩ := renderInto_spec s.config c (s.digitPos.setWidth 2) hm
    simp only [lights_ordinary hdec hcol] at hbits
    rw [BitVec.ofNat_toNat]
    exact ⟨_, exec_putc_ordinary_eq hinit (isModifier_eq_false hdec hcol) hd, hwf, toNat_digitPos_succ hd, hbits, hkept⟩

/-! ## Two known images (R84) -/

theorem not_inImage_zero (d : BitVec 2) (l : Loc) : ¬ inImage 0 d l := by
  simp [inImage]

theorem getLsbD_fullMask : ∀ g : Fin 14, (0x3FFF : SegMask).getLsbD g.val = true := by decide

/-- The locations of a digit's segments: in the segment region, with the digit in the low two bits of the bit number
(R77). -/
theorem exists_locate_digit_iff (d : BitVec 2) (a : Addr) (b : BitVec 3) :
    (∃ g, locate g d = ⟨a, b⟩) ↔ (a.toNat % 2 = 0 ∧ a.toNat ≤ 12) ∧ b.toNat % 4 = d.toNat := by
  have hdigit (g : Fin 14) (d : BitVec 2) : (locate g d).bit.toNat % 4 = d.toNat := by
    rw [locate_bit_toNat, rowOf_eq]
    split_ifs <;> omega
  constructor
  · rintro ⟨g, hg⟩
    have hregion := locate_inRegion g d
    have hbit := hdigit g d
    rw [hg] at hregion hbit
    exact ⟨by simpa [Loc.inRegion] using hregion, hbit⟩
  · rintro ⟨⟨heven, hle⟩, hbit⟩
    obtain ⟨g, d', hg⟩ := exists_locate_eq heven hle b
    have hbit' := hdigit g d'
    rw [hg] at hbit'
    obtain rfl : d' = d := BitVec.eq_of_toNat_eq (hbit'.symm.trans hbit)
    exact ⟨g, hg⟩

theorem inImage_fullMask (d : BitVec 2) (a : Addr) (b : BitVec 3) :
    inImage 0x3FFF d ⟨a, b⟩ ↔ (a.toNat % 2 = 0 ∧ a.toNat ≤ 12) ∧ b.toNat % 4 = d.toNat := by
  simp only [inImage, getLsbD_fullMask, true_and]
  exact exists_locate_digit_iff d a b

/-- The two bits of a byte that belong to a digit. -/
theorem getLsbD_digitBits : ∀ (d : BitVec 2) (b : BitVec 3),
    (0x11#8 <<< d.toNat).getLsbD b.toNat = true ↔ b.toNat % 4 = d.toNat := by decide

theorem renderInto_space (hcfg : cfg.wf) (d : BitVec 2) (hm : m.wf) : renderInto cfg 0x20 d m = m := by
  refine Memory.ext_of_bits (renderInto_wf _ _ _ hm) hm fun l => ?_
  obtain ⟨hspace, -⟩ := knownMasks.2 cfg hcfg
  rw [Bool.eq_iff_iff, bitAt_renderInto _ _ _ hm, lights_ordinary (by decide) (by decide), hspace]
  exact or_iff_left (not_inImage_zero d l)

theorem readByte_renderInto_unknown (hcfg : cfg.wf) {c : Byte} (hc : c ≤ 0x1F ∨ 0x7F ≤ c) (d : BitVec 2) (hm : m.wf)
    (a : Addr) : readByte (renderInto cfg c d m) a =
      if a.toNat % 2 = 0 ∧ a.toNat ≤ 12 then readByte m a ||| (0x11#8 <<< d.toNat) else readByte m a := by
  obtain ⟨-, hunknown⟩ := knownMasks.2 cfg hcfg
  have hlights (b : BitVec 3) : lights cfg c d ⟨a, b⟩ ↔
      (a.toNat % 2 = 0 ∧ a.toNat ≤ 12) ∧ b.toNat % 4 = d.toNat := by
    rw [lights_ordinary (by bv_omega) (by bv_omega), hunknown c hc, inImage_fullMask]
  split_ifs with ha
  · refine readByte_eq_or_of_bitAt fun b => ?_
    rw [bitAt_renderInto _ _ _ hm, hlights, getLsbD_digitBits, and_iff_right ha]
  · refine otherBytesKept_renderInto _ _ _ hm a ?_
    rintro ⟨_, b⟩ hlit rfl
    exact ha ((hlights b).mp hlit).1

/-- Settles O34: by `renderInto_space` and `readByte_renderInto_unknown`. -/
theorem spaceAndUnknownImages : Obligations.SpaceAndUnknownImages :=
  fun _ _ d hcfg hm => ⟨renderInto_space hcfg d hm, fun _ hc => readByte_renderInto_unknown hcfg hc d hm⟩

/-! ## Modifiers (R82, R83, R86) -/

theorem renderInto_decimal (cfg : Config) (d : BitVec 2) (m : Memory) :
    renderInto cfg 0x2E d m = setDecFlag cfg m := if_pos ((idx_eq_decimal 0x2E).mpr rfl)

theorem renderInto_colon (cfg : Config) (d : BitVec 2) (m : Memory) : renderInto cfg 0x3A d m = setColFlag cfg m := by
  rw [renderInto, if_neg ((idx_eq_decimal 0x3A).not.mpr (by decide)), if_pos ((idx_eq_colon 0x3A).mpr rfl)]

/-- A flag's location is no entry of the table. -/
theorem renderInto_modifier_setTable {c : Byte} (hc : c = 0x2E ∨ c = 0x3A) (d d' : BitVec 2)
    (table : Vector SegMask 96) : renderInto { cfg with segTable := table } c d' m = renderInto cfg c d m := by
  rcases hc with rfl | rfl
  · rw [renderInto_decimal, renderInto_decimal, setDecFlag, setDecFlag]
  · rw [renderInto_colon, renderInto_colon, setColFlag, setColFlag]

theorem State.render_modifier_setTable {c : Byte} (hc : c = 0x2E ∨ c = 0x3A) (d d' : BitVec 2)
    (table : Vector SegMask 96) : { s with config := { s.config with segTable := table } }.render c d' =
      { s.render c d with config := { s.config with segTable := table } } := by
  simp only [State.render, renderInto_modifier_setTable hc d d' table]

/-- Settles O37: both commands end with their render, and the renders agree (`State.render_modifier_setTable`). -/
theorem modifierReadsNeitherTableNorDigit : Obligations.ModifierReadsNeitherTableNorDigit := by
  intro c d d' s t table hc hinit ht
  cases ht.symm.trans (exec_renderAt_eq c d hinit)
  rw [exec_renderAt_eq (s := { s with config := { s.config with segTable := table } }) c d' hinit,
    State.render_modifier_setTable hc d d' table]

end Sys2Proof.Machine
end

section
/-! O39 to O44. The buffer commands, and the kind of output of every command (spec/43_buffer.md R93 to R99). -/

namespace Sys2Proof.Machine

variable {s : State}

/-! ## The sync frame (R93) -/

theorem frameOf_opcode (m : Memory) : (frameOf m)[0] = 0x00 := rfl

theorem addrs_getElem : ∀ k : Fin 16, addrs[k.val]'k.isLt = BitVec.ofNat 4 k.val := by decide

theorem frameOf_byte (m : Memory) (k : Fin 16) : (frameOf m)[1 + k.val] = readByte m (BitVec.ofNat 4 k.val) := by
  simp only [frameOf, Nat.add_comm 1, Vector.getElem_mk, List.getElem_toArray, List.getElem_cons_succ, List.getElem_map]
  exact congrArg (readByte m) (addrs_getElem k)

theorem frameOf_nil : frameOf [] = Vector.replicate 17 0x00 := by decide

/-! ## Commands that look at nothing (R94 to R96) -/

/-- Settles O39: `NOP` is quiet. -/
theorem nopResult : Obligations.NopResult := ⟨rfl, fun s => (Quiet.nop s).exec_eq⟩

/-- Settles O40: by `exec_zero_eq`; the empty memory is the zeroed shadow RAM. -/
theorem resetBufResult : Obligations.ResetBufResult :=
  ⟨rfl, fun _ => ⟨[], exec_zero_eq (.inl ⟨rfl, rfl⟩), wf_nil, readByte_nil, bitAt_nil _, bitAt_nil _⟩⟩

/-- Settles O41: by `exec_zero_eq`, with the frame of the empty memory (`frameOf_nil`). -/
theorem clearResult : Obligations.ClearResult := by
  refine ⟨rfl, fun _ => ⟨[], frameOf [], exec_zero_eq (.inr ⟨rfl, rfl⟩), wf_nil, readByte_nil, bitAt_nil _,
    bitAt_nil _, fun k => ?_⟩⟩
  rw [frameOf_nil]
  exact Vector.getElem_replicate _

/-! ## `READ` and `SYNC` (R97, R98) -/

/-- A byte outside the segment region that holds no flag bit is 0 (R29). -/
theorem State.Inv.readByte_unused (h : s.Inv) (hinit : s.init = true) {a : Addr} (ha : a.toNat % 2 = 1 ∨ 14 ≤ a.toNat)
    (hdec : s.config.decLoc.addr ≠ a) (hcol : s.config.colLoc.addr ≠ a) : readByte s.shadow a = 0 := by
  have hregion (b : BitVec 3) : Loc.inRegion ⟨a, b⟩ = false := by
    rw [Bool.eq_false_iff]
    simp only [Loc.inRegion, ne_eq, Bool.and_eq_true, beq_iff_eq, decide_eq_true_eq]
    omega
  refine readByte_eq_of_bitAt (m' := []) a fun b => ?_
  rw [bitAt_nil]
  exact h.unused_zero hinit ⟨a, b⟩ (hregion b) (fun hb => hdec (hb ▸ rfl)) (fun hb => hcol (hb ▸ rfl))

/-- Settles O42: `READ` is quiet with `INIT = 1` and stopped with `INIT = 0`; the invariant gives the unused bytes. -/
theorem readResult : Obligations.ReadResult := by
  refine ⟨fun a => encode_and_mask (r := ⟨"READ", 0x8000, 0xFFF0⟩) (by decide) rfl,
    fun a s hinit => (Quiet.read a s hinit).exec_eq, fun a s hinit => (Stopped.read a s hinit).exec_eq,
    fun a s hinv hinit ha hdec hcol => ?_⟩
  have hread := (Quiet.read a s hinit).exec_eq
  rwa [hinv.readByte_unused hinit ha hdec hcol] at hread

/-- Settles O43: `SYNC` gives the frame of the shadow RAM, which is the same RAM after it. -/
theorem syncResult : Obligations.SyncResult :=
  ⟨rfl, fun s hinit => ⟨frameOf s.shadow, (Quiet.sync s hinit).exec_eq, frameOf_opcode _, frameOf_byte _,
    (Quiet.sync { s with outputs := s.outputs ++ [.frame (frameOf s.shadow)] } hinit).exec_eq⟩,
    fun s hinit => (Stopped.sync s hinit).exec_eq⟩

/-! ## Outputs (R27, R99) -/

/-- Settles O44: by the four ways in which a command runs; a quiet one names its output. -/
theorem eachCommandsKindOfOutput : Obligations.EachCommandsKindOfOutput := by
  intro i s t _ h hmark
  cases ran_of_mark_none h hmark with
  | out o hi ht => exact ⟨o, by rw [ht], by cases hi <;> simp⟩
  | zero o hi ht => exact ⟨o, by rw [ht], by rcases hi with ⟨rfl, rfl⟩ | ⟨rfl, rfl⟩ <;> simp⟩
  | render c d hi _ ht => exact ⟨.none, by rw [ht], by rcases hi with rfl | ⟨rfl, -, -⟩ <;> simp⟩
  | advance c hi _ _ _ ht => exact ⟨.none, by rw [ht], by simp [hi]⟩

end Sys2Proof.Machine
end

section
/-! O47 to O49. The pseudo-instruction `WRITE`: what its expansion leaves after each of its commands
(spec/43_buffer.md R101 to R106). -/

namespace Sys2Proof.Machine

variable {i : Instr} {s t : State}

/-! ## The words of the expansion (R101 to R103) -/

theorem writeBytes_eq_take (bs : List Byte) : writeBytes bs = bs.take 4 := by
  rw [writeBytes, writeResult, Nat.min_comm, ← List.take_eq_take_min]

theorem writeBytes_length (bs : List Byte) : (writeBytes bs).length = min bs.length 4 := by
  rw [writeBytes_eq_take, List.length_take, Nat.min_comm]

theorem writeExpand_length (bs : List Byte) : (writeExpand bs).length = (writeBytes bs).length + 2 := by
  simp [writeExpand]

/-- Settles O47: the expansion is a function of the bytes kept, and keeping four of them twice is keeping them once. -/
theorem writeTruncatesByBytes : Obligations.WriteTruncatesByBytes := by
  refine fun s bs => ⟨?_, rfl, by rw [writeExpand_length, writeBytes_length]⟩
  have hbytes : writeBytes bs = writeBytes (bs.take 4) := by
    rw [writeBytes_eq_take, writeBytes_eq_take, List.take_take, Nat.min_self]
  rw [State.presentWrite, State.presentWrite, writeExpand, writeExpand, hbytes]

/-- The words of a `PUTC` for each byte. -/
def putcWords (bs : List Byte) : List Word := bs.map (encode ∘ .putc)

theorem presentWrite_eq (s : State) (bs : List Byte) :
    s.presentWrite bs = s.present (encode .resetBuf :: (putcWords (writeBytes bs) ++ [encode .sync])) := by
  simp [State.presentWrite, writeExpand, putcWords]

/-! ## Running the words that the host presents -/

theorem Ran.mark_eq (h : Ran i s t) : t.mark = s.mark := by cases h <;> simp [*]

/-- A command presented first runs as `exec` has it, and leaves the words after it presented. -/
theorem run_present_cons (k : Nat) {ws : List Word} (hmark : s.mark = none) (hi : i.wf = true)
    (h : exec i s = .next t) :
    Host.Core.run core (k + 1) (s.present (encode i :: ws)) = Host.Core.run core k (t.present ws) := by
  refine run_command k hmark rfl (decode_encode_of_wf hi) ?_
  rw [State.present, ← exec_port h]
  exact exec_setPort h _

/-- A `PUTC` with `INIT = 1` and a cell left runs, whether or not its character is a modifier (R88). -/
theorem ran_putc (c : Byte) (hinit : s.init = true) (hd : s.digitPos.toNat < 4) : ∃ t, Ran (.putc c) s t := by
  obtain ⟨t, ht⟩ := exec_total (.putc c) s
  rcases exec_cases ht with ⟨r, hr, -⟩ | hran
  · cases hr with
    | putc _ _ h => exact absurd hinit (Bool.eq_false_iff.mp h)
    | full _ _ _ _ h => exact absurd hd (Nat.not_lt.mpr h)
  · exact ⟨t, hran⟩

/-! ## What the bytes so far light (R104) -/

/-- The ordinary characters of a list of bytes (R91). -/
def ordinaryOf (bs : List Byte) : List Byte := bs.filter fun c => c ≠ 0x2E ∧ c ≠ 0x3A

/-- The locations that a `WRITE` of these bytes lights: the image of the `j`-th ordinary character at digit `j`, and
the flag bit of each modifier among them. -/
def writtenLights (cfg : Config) (bs : List Byte) (l : Loc) : Prop :=
  (∃ (j : Nat) (c : Byte), (ordinaryOf bs)[j]? = some c ∧ inImage (enc cfg c) (BitVec.ofNat 2 j) l) ∨
    (0x2E ∈ bs ∧ l = cfg.decLoc) ∨ (0x3A ∈ bs ∧ l = cfg.colLoc)

theorem ordinaryOf_concat_modifier {c : Byte} (hc : c = 0x2E ∨ c = 0x3A) (bs : List Byte) :
    ordinaryOf (bs ++ [c]) = ordinaryOf bs := by
  rcases hc with rfl | rfl <;> simp [ordinaryOf]

theorem ordinaryOf_concat_ordinary {c : Byte} (hdec : c ≠ 0x2E) (hcol : c ≠ 0x3A) (bs : List Byte) :
    ordinaryOf (bs ++ [c]) = ordinaryOf bs ++ [c] := by
  have hc : [c].filter (fun c => c ≠ 0x2E ∧ c ≠ 0x3A) = [c] := List.filter_cons_of_pos (decide_eq_true ⟨hdec, hcol⟩)
  rw [ordinaryOf, List.filter_append, hc]
  rfl

theorem ordinaryOf_length_le (bs : List Byte) : (ordinaryOf bs).length ≤ bs.length := List.length_filter_le _ _

theorem not_writtenLights_nil (cfg : Config) (l : Loc) : ¬ writtenLights cfg [] l := by
  simp [writtenLights, ordinaryOf]

/-- The last element stands at the place that the length of the others names. -/
theorem exists_getElem?_concat {α : Type} {p : Nat → α → Prop} (xs : List α) (x : α) :
    (∃ j y, (xs ++ [x])[j]? = some y ∧ p j y) ↔ (∃ j y, xs[j]? = some y ∧ p j y) ∨ p xs.length x := by
  simp only [List.getElem?_append, List.getElem?_singleton]
  grind

/-- One byte more lights what it lights at the first digit left. -/
theorem writtenLights_concat (cfg : Config) (bs : List Byte) (c : Byte) (l : Loc) :
    writtenLights cfg (bs ++ [c]) l ↔
      writtenLights cfg bs l ∨ lights cfg c (BitVec.ofNat 2 (ordinaryOf bs).length) l := by
  by_cases hc : c = 0x2E ∨ c = 0x3A
  · rw [lights_modifier hc]
    unfold writtenLights
    rw [ordinaryOf_concat_modifier hc]
    simp only [List.mem_append, List.mem_singleton]
    rcases hc with rfl | rfl <;> grind
  · obtain ⟨hdec, hcol⟩ := not_or.mp hc
    rw [lights_ordinary hdec hcol]
    unfold writtenLights
    rw [ordinaryOf_concat_ordinary hdec hcol, exists_getElem?_concat]
    simp only [List.mem_append, List.mem_singleton, Ne.symm hdec, Ne.symm hcol, or_false, or_right_comm]

/-! ## The invariant of a `WRITE` -/

/-- The state `t` after the `RESET_BUF` of a `WRITE` that began in `s` and a `PUTC` for each of the bytes `bs`. -/
structure Written (s : State) (bs : List Byte) (t : State) : Prop where
  config : t.config = s.config
  port : t.port = s.port
  mark : t.mark = none
  init : t.init = true
  digitPos : t.digitPos.toNat = (ordinaryOf bs).length
  shadow_wf : t.shadow.wf
  bits : ∀ l, bitAt t.shadow l = true ↔ writtenLights s.config bs l
  outputs : t.outputs = s.outputs ++ List.replicate (bs.length + 1) .none

theorem written_nil (hmark : s.mark = none) : ∃ t, exec .resetBuf s = .next t ∧ Written s [] t :=
  ⟨_, exec_zero_eq (.inl ⟨rfl, rfl⟩),
    { config := rfl, port := rfl, mark := hmark, init := rfl, digitPos := rfl, shadow_wf := wf_nil, outputs := rfl
      bits := fun l => by simp [not_writtenLights_nil] }⟩

theorem Written.shadow_eq_nil (h : Written s [] t) : t.shadow = [] := by
  refine Memory.ext_of_bits h.shadow_wf wf_nil fun l => ?_
  rw [bitAt_nil, Bool.eq_false_iff, Ne, h.bits]
  exact not_writtenLights_nil s.config l

theorem Written.concat {bs : List Byte} (h : Written s bs t) (hlen : bs.length < 4) (c : Byte) :
    ∃ u, exec (.putc c) t = .next u ∧ Written s (bs ++ [c]) u := by
  have hd : t.digitPos.toNat < 4 := h.digitPos ▸ Nat.lt_of_le_of_lt (ordinaryOf_length_le bs) hlen
  obtain ⟨u, hran⟩ := ran_putc c h.init hd
  have hexec := hran.exec_eq
  have hmark : u.mark = none := hran.mark_eq.trans h.mark
  have hshadow : u.shadow = renderInto s.config c (BitVec.ofNat 2 (ordinaryOf bs).length) t.shadow := by
    rw [hran.shadow_eq, shadowAfter, h.config, ← h.digitPos, BitVec.ofNat_toNat]
  obtain ⟨-, hadvance, hstay⟩ := digitPositionAdvancesOncePerOrdinaryCharacter _ _ _ hexec hmark
  obtain ⟨o, hout, -, hnone, -⟩ := eachCommandsKindOfOutput _ _ _ h.mark hexec hmark
  refine ⟨u, hexec,
    { config := hran.config_eq.trans h.config
      port := hran.port_eq.trans h.port
      mark := hmark
      init := hran.init_iff.mpr (.inl h.init)
      digitPos := ?digitPos
      shadow_wf := hshadow ▸ renderInto_wf _ _ _ h.shadow_wf
      bits := fun l => by rw [hshadow, bitAt_renderInto _ _ _ h.shadow_wf, h.bits, writtenLights_concat]
      outputs := ?outputs }⟩
  case digitPos =>
    by_cases hc : c = 0x2E ∨ c = 0x3A
    · rw [ordinaryOf_concat_modifier hc, ← h.digitPos, hstay nofun nofun (by rintro _ ⟨⟩; exact hc)]
    · obtain ⟨hdec, hcol⟩ := not_or.mp hc
      rw [ordinaryOf_concat_ordinary hdec hcol, hadvance c rfl hdec hcol, h.digitPos, List.length_append,
        List.length_singleton]
  case outputs =>
    obtain rfl := hnone.mpr (.inr (.inr (.inr ⟨c, rfl⟩)))
    rw [hout, h.outputs, List.append_assoc, ← List.replicate_succ', List.length_append, List.length_singleton]

/-- The run up to any byte of a `WRITE`, whatever is presented after it. -/
theorem run_written (hmark : s.mark = none) {bs : List Byte} (hlen : bs.length ≤ 4) (ws : List Word) :
    ∃ t, Host.Core.run core (bs.length + 1) (s.present (encode .resetBuf :: (putcWords bs ++ ws))) =
      .next (t.present ws) ∧ Written s bs t := by
  induction bs using List.reverseRecOn generalizing ws with
  | nil =>
    obtain ⟨t, hexec, ht⟩ := written_nil hmark
    exact ⟨t, run_present_cons 0 hmark rfl hexec, ht⟩
  | append_singleton bs c ih =>
    rw [List.length_append, List.length_singleton] at hlen ⊢
    obtain ⟨t, hrun, ht⟩ := ih (by omega) (encode (.putc c) :: ws)
    obtain ⟨u, hexec, hu⟩ := ht.concat (by omega) c
    refine ⟨u, ?_, hu⟩
    rw [putcWords, List.map_append, List.append_assoc]
    exact (run_add (bs.length + 1) 1 hrun).trans (run_present_cons 0 ht.mark rfl hexec)

/-- The whole run of a `WRITE`: the frame of the shadow RAM is its last output. -/
theorem run_presentWrite (hmark : s.mark = none) (bs : List Byte) :
    ∃ t, Host.Core.run core (writeExpand bs).length (s.presentWrite bs) =
      .next { t with outputs := t.outputs ++ [.frame (frameOf t.shadow)] } ∧ Written s (writeBytes bs) t := by
  have hlen : (writeBytes bs).length ≤ 4 := writeBytes_length bs ▸ Nat.min_le_right _ _
  obtain ⟨t, hrun, ht⟩ := run_written hmark hlen [encode .sync]
  refine ⟨t, ?_, ht⟩
  rw [writeExpand_length, presentWrite_eq]
  exact (run_add _ 1 hrun).trans (run_present_cons 0 ht.mark rfl (Quiet.sync t ht.init).exec_eq)

/-- Settles O48: `run_presentWrite`, and the clauses of `Written`. -/
theorem writeEndState : Obligations.WriteEndState := by
  intro s bs hmark
  obtain ⟨t, hrun, ht⟩ := run_presentWrite hmark bs
  rw [writeBytes_eq_take] at ht
  exact ⟨_, hrun, ht.digitPos, ht.init, ht.mark, ht.port, ht.config, ht.shadow_wf, ht.bits, frameOf t.shadow,
    congrArg (· ++ [.frame (frameOf t.shadow)]) ht.outputs, frameOf_opcode _, frameOf_byte _⟩

theorem filter_isFrame_replicate_none (k : Nat) : (List.replicate k Output.none).filter Output.isFrame = [] := by
  simp [Output.isFrame]

/-- The run up to any command of a `WRITE` before its `SYNC`: no frame yet. -/
theorem run_presentWrite_lt (hmark : s.mark = none) {bs : List Byte} {k : Nat} (hk : k < (writeExpand bs).length) :
    ∃ t, Host.Core.run core k (s.presentWrite bs) = .next t ∧ t.mark = none ∧
      t.outputs = s.outputs ++ List.replicate k .none := by
  rw [presentWrite_eq]
  cases k with
  | zero => exact ⟨_, rfl, hmark, (List.append_nil _).symm⟩
  | succ j =>
    have hlen := writeBytes_length bs
    rw [writeExpand_length] at hk
    have hj : ((writeBytes bs).take j).length = j := List.length_take_of_le (by omega)
    obtain ⟨t, hrun, ht⟩ := run_written hmark (bs := (writeBytes bs).take j) (by omega)
      (putcWords ((writeBytes bs).drop j) ++ [encode .sync])
    rw [← List.append_assoc, putcWords, putcWords, ← List.map_append, List.take_append_drop, hj] at hrun
    exact ⟨_, hrun, ht.mark, hj ▸ ht.outputs⟩

/-- Settles O49: `run_presentWrite_lt` before the last command, `run_presentWrite` at it; with no bytes the
frame is that of the empty memory (`Written.shadow_eq_nil`). -/
theorem writeNeverFaultsAndEmitsOneFrame : Obligations.WriteNeverFaultsAndEmitsOneFrame := by
  intro s bs hmark
  refine ⟨fun i hi => decode_encode_of_wf (writeExpand_wf bs i hi), fun k hk => ?_, ?_⟩
  · rcases Nat.lt_or_eq_of_le hk with hlt | rfl
    · obtain ⟨t, hrun, ht, hout⟩ := run_presentWrite_lt hmark hlt
      refine ⟨t, _, hrun, ht, hout, List.length_replicate, ?_⟩
      rw [filter_isFrame_replicate_none, if_neg (Nat.ne_of_lt hlt), List.length_nil]
    · obtain ⟨t, hrun, ht⟩ := run_presentWrite hmark bs
      refine ⟨_, List.replicate ((writeBytes bs).length + 1) .none ++ [.frame (frameOf t.shadow)], hrun, ht.mark, ?_,
        ?_, ?_⟩
      · rw [ht.outputs, List.append_assoc]
      · rw [writeExpand_length, List.length_append, List.length_replicate, List.length_singleton]
      · rw [List.filter_append, filter_isFrame_replicate_none, if_pos rfl]
        rfl
  · obtain ⟨t, hrun, ht⟩ := run_presentWrite hmark []
    refine ⟨_, hrun, ?_⟩
    change t.outputs ++ [.frame (frameOf t.shadow)] = _
    rw [ht.outputs, ht.shadow_eq_nil, frameOf_nil, List.append_assoc]
    rfl

end Sys2Proof.Machine
end

section
/-! O14 to O18. Outcomes: which cause stops a presented word (R109 to R111), what a stop changes (R112), and what a step
answers once `MARK` is set (R113). -/

namespace Sys2Proof

/-! ## Must-be-zero bits, by the opcode map (R51, R53) -/

theorem exists_opcodeTable_row : ∀ op < 10, ∃ r ∈ opcodeTable, r.opcode = op := by decide

theorem pattern_opField_eq_iff (r : OpRow) (w : Word) :
    r.pattern.extractLsb' 12 4 = w.extractLsb' 12 4 ↔ r.opcode = w.toNat / 4096 := by
  rw [← opField_toNat, OpRow.opcode, ← opField_toNat, BitVec.toNat_inj]
  rfl

namespace Machine

theorem reservedBitSet_iff {w : Word} (hop : w.toNat / 4096 < 10) :
    reservedBitSet w ↔ ¬ w.toNat % 4096 < 2 ^ payloadBits (w.toNat / 4096) := by
  constructor
  · rintro ⟨r, hr, hfield, hsel⟩ hz
    have hrow := (pattern_opField_eq_iff r w).mp hfield
    exact hsel ((OpRow.selects_iff hr w).mpr ⟨hrow.symm, hrow ▸ hz⟩)
  · intro hz
    obtain ⟨r, hr, hrow⟩ := exists_opcodeTable_row _ hop
    exact ⟨r, hr, (pattern_opField_eq_iff r w).mpr hrow,
      fun hsel => hz (hrow ▸ ((OpRow.selects_iff hr w).mp hsel).2)⟩

theorem not_reservedBitSet_encode (i : Instr) : ¬ reservedBitSet (encode i) := by
  rw [reservedBitSet_iff (encode_opcode i ▸ i.opcode_lt), not_not, encode_opcode, encode_payload]
  exact i.payload_lt

/-! ## What a presented word does -/

variable {i : Instr} {s t : State} {w : Word} {rest : List HostInput} {r : Stop}

/-- What stops a word: the decoder's first two tests (R52, R53), or the command it is the word of. A value out of range
(R54) is in the last case, where `exec` and the decoder refuse alike. -/
inductive StoppedWord (s : State) : Word → Stop → Prop
  | opcode (w : Word) (hop : 10 ≤ w.toNat / 4096) : StoppedWord s w (.refuse .refOpcode w)
  | reserved (w : Word) (hop : w.toNat / 4096 < 10) (hz : ¬ w.toNat % 4096 < 2 ^ payloadBits (w.toNat / 4096)) :
      StoppedWord s w (.refuse .refRsvdBits w)
  | command (i : Instr) (r : Stop) (h : Stopped i s r) : StoppedWord s (encode i) r

/-- The word of a command does what the command does, in range or not. -/
theorem step_encode (hmark : s.mark = none) (hp : s.port = .command (encode i) :: rest) :
    step s = exec i { s with port := rest } := by
  by_cases hwf : i.wf = true
  · exact step_decoded hmark hp (decode_encode_of_wf hwf)
  · rw [step_refused hmark hp (decode_encode_of_not_wf hwf)]
    rcases Instr.not_wf_cases hwf with ⟨n, rfl, hn⟩ | ⟨g, d, rfl, hg⟩
    · exact (Stopped.lookup n { s with port := rest } hn).exec_eq.symm
    · exact (Stopped.locate g d { s with port := rest } hg).exec_eq.symm

/-- A word presented while the run goes on is stopped, and then `MARK` and the port are all that changes, or it is the
word of a command that runs. -/
theorem step_presented_cases (hmark : s.mark = none) (hp : s.port = .command w :: rest) :
    (∃ r, StoppedWord s w r ∧ step s = .next { s with port := rest, mark := some r }) ∨
      ∃ i t, encode i = w ∧ Ran i { s with port := rest } t ∧ step s = .next t := by
  by_cases hop : w.toNat / 4096 < 10
  · by_cases hz : w.toNat % 4096 < 2 ^ payloadBits (w.toNat / 4096)
    · obtain ⟨i, rfl⟩ := exists_encode_eq hop hz
      have hstep := step_encode hmark hp
      obtain ⟨t, ht⟩ := exec_total i { s with port := rest }
      rcases exec_cases ht with ⟨r, hr, rfl⟩ | hran
      · exact .inl ⟨r, .command i r (hr.congr rfl fun _ => rfl), hstep.trans ht⟩
      · exact .inr ⟨i, t, rfl, hran, hstep.trans ht⟩
    · exact .inl ⟨_, .reserved w hop hz, step_refused hmark hp (decode_of_reserved hop hz)⟩
  · have hge := Nat.le_of_not_lt hop
    exact .inl ⟨_, .opcode w hge, step_refused hmark hp (decode_of_opcode_ge hge)⟩

/-! ## The first cause (R111) -/

theorem extractLsb'_opcode_toNat (w : Word) : (w.extractLsb' 12 4).toNat = w.toNat / 4096 := opField_toNat w

/-- For the word of a command the first two causes are out. -/
theorem firstCause_encode (s : State) (i : Instr) : firstCause s (encode i) =
    if i.opcode = 2 ∧ ((encode i).extractLsb' 0 7).toNat ≥ 96 then some (.refuse .refIndex (encode i))
    else if i.opcode = 3 ∧ ((encode i).extractLsb' 2 4).toNat ≥ 14 then some (.refuse .refSegment (encode i))
    else if (i.opcode = 4 ∨ i.opcode = 5 ∨ i.opcode = 8 ∨ i.opcode = 9) ∧ s.init = false then
      some (.fltUninit (encode i))
    else if i.opcode = 5 ∧ (encode i).extractLsb' 0 8 ≠ 0x2E ∧ (encode i).extractLsb' 0 8 ≠ 0x3A ∧
      s.digitPos.toNat ≥ 4 then some (.fltDigitOvf (encode i) s.digitPos)
    else none := by
  simp only [firstCause, extractLsb'_opcode_toNat, encode_opcode, if_neg (Nat.not_le.mpr i.opcode_lt),
    if_neg (not_reservedBitSet_encode i)]

theorem encode_putc_field (c : Byte) : (encode (.putc c)).extractLsb' 0 8 = c := encode_field

theorem Stopped.firstCause_eq (h : Stopped i s r) : firstCause s (encode i) = some r := by
  rw [firstCause_encode]
  cases h with
  | lookup n _ hn => simp [Instr.opcode, encode_lookup_field, hn]
  | locate g d _ hg => simp [Instr.opcode, encode_locate_seg, hg]
  | renderAt _ _ _ hinit | putc _ _ hinit | read _ _ hinit | sync _ hinit => simp [Instr.opcode, hinit]
  | full c _ hinit hc hd =>
    obtain ⟨hdec, hcol⟩ := not_or.mp (mt (isModifier_iff c).mpr (Bool.eq_false_iff.mp hc))
    simp [Instr.opcode, encode_putc_field, hinit, hdec, hcol, hd]

theorem Quiet.firstCause_eq {o : Output} (h : Quiet i s o) : firstCause s (encode i) = none := by
  rw [firstCause_encode]
  cases h with
  | nop | index => simp [Instr.opcode]
  | lookup n _ hn => simp [Instr.opcode, encode_lookup_field, hn]
  | locate g d _ hg => simp [Instr.opcode, encode_locate_seg, hg]
  | read _ _ hinit | sync _ hinit => simp [Instr.opcode, hinit]

theorem Ran.firstCause_eq (h : Ran i s t) : firstCause s (encode i) = none := by
  cases h with
  | out _ hi _ => exact hi.firstCause_eq
  | zero _ hi _ =>
    rw [firstCause_encode]
    rcases hi with ⟨rfl, -⟩ | ⟨rfl, -⟩ <;> simp [Instr.opcode]
  | render c d hi hinit _ =>
    rw [firstCause_encode]
    rcases hi with rfl | ⟨rfl, hc, -⟩
    · simp [Instr.opcode, hinit]
    · rcases (isModifier_iff c).mp hc with rfl | rfl <;> simp [Instr.opcode, encode_putc_field, hinit]
  | advance c hi _ hinit hd _ =>
    subst hi
    simp [firstCause_encode, Instr.opcode, hinit, hd]

theorem StoppedWord.firstCause_eq (h : StoppedWord s w r) : firstCause s w = some r := by
  cases h with
  | opcode _ hop => simp only [firstCause, extractLsb'_opcode_toNat, ge_iff_le, if_pos hop]
  | reserved _ hop hz =>
    simp only [firstCause, extractLsb'_opcode_toNat, if_neg (Nat.not_le.mpr hop),
      if_pos ((reservedBitSet_iff hop).mpr hz)]
  | command i _ h => exact h.firstCause_eq

/-- Settles O14: a stopped word is stopped for its first cause, and one that runs has none. -/
theorem firstCauseWins : Obligations.FirstCauseWins := by
  intro s w rest hmark hp
  rcases step_presented_cases hmark hp with ⟨r, hr, hs⟩ | ⟨i, t, rfl, hran, hs⟩
  · exact ⟨_, hs, hr.firstCause_eq.symm⟩
  · have hcause : firstCause s (encode i) = none := (hran.setPort s.port).firstCause_eq
    exact ⟨t, hs, hran.mark_eq.trans (hmark.trans hcause.symm)⟩

/-! ## Which codes can occur, and what they record (R109, R110) -/

theorem refOpcode_mem_possibleCodes {op : Nat} (hop : 10 ≤ op) : 1 ∈ possibleCodes op := by
  obtain ⟨k, rfl⟩ := Nat.exists_eq_add_of_le' hop
  exact List.mem_singleton.mpr rfl

theorem refRsvdBits_mem_possibleCodes : ∀ op < 10, 2 ∈ possibleCodes op := by decide

theorem Stopped.number_mem (h : Stopped i s r) : r.number ∈ possibleCodes i.opcode := by
  cases h <;> simp [Stop.number, possibleCodes, Instr.opcode]

theorem StoppedWord.number_mem (h : StoppedWord s w r) : r.number ∈ possibleCodes (w.toNat / 4096) := by
  cases h with
  | opcode _ hop => exact refOpcode_mem_possibleCodes hop
  | reserved _ hop _ => exact refRsvdBits_mem_possibleCodes _ hop
  | command i _ h => exact encode_opcode i ▸ h.number_mem

theorem StoppedWord.word_eq (h : StoppedWord s w r) : r.word = w := by
  cases h with
  | opcode | reserved => rfl
  | command i _ h => cases h <;> rfl

theorem StoppedWord.digitPos_eq {w' : Word} {d : BitVec 3} (h : StoppedWord s w (.fltDigitOvf w' d)) :
    d = s.digitPos := by
  cases h with
  | command i _ h => cases h; rfl

/-- Settles O15: a run leaves `MARK` alone, so the mark is that of a `StoppedWord`. -/
theorem onlyTheListedCodes : Obligations.OnlyTheListedCodes := by
  intro s t w rest r hmark hp h hr
  rcases step_presented_cases hmark hp with ⟨r', hstop, hs⟩ | ⟨i, t', -, hran, hs⟩
  · cases h.symm.trans hs
    cases hr
    exact ⟨hstop.number_mem, hstop.word_eq, fun d hd => (hd ▸ hstop).digitPos_eq⟩
  · cases h.symm.trans hs
    cases hr.symm.trans (hran.mark_eq.trans hmark)

/-! ## Precise stops (R112) -/

/-- Settles O16: of the two cases of `step_presented_cases` only the stop leaves a mark. -/
theorem everyStopIsPrecise : Obligations.EveryStopIsPrecise := by
  intro s t w rest hmark hp h hset
  rcases step_presented_cases hmark hp with ⟨r, -, hs⟩ | ⟨i, t', -, hran, hs⟩
  · cases h.symm.trans hs
    rfl
  · cases h.symm.trans hs
    exact absurd (hran.mark_eq.trans hmark) hset

/-! ## The end of a run (R108, R113) -/

theorem step_marked (hmark : s.mark = some r) (hp : s.port = .command w :: rest) : step s = .fault .runEnded := by
  simp only [step_command hp, runWord, hmark]

/-- Settles O17: by `step_cases`, where both ways of taking a word ask `MARK = None`. -/
theorem markIsSticky : Obligations.MarkIsSticky := by
  refine ⟨fun _ _ _ _ hmark hp => step_marked hmark hp, fun s t hset h => ?_,
    fun _ _ hp => ⟨_, step_reset hp, rfl⟩⟩
  rcases step_cases h with ⟨-, ht⟩ | ⟨_, _, _, -, hmark, -, -⟩ | ⟨_, _, _, -, hmark, -, -⟩ | ⟨_, hp, -⟩
  · exact .inl ht
  · exact absurd hmark hset
  · exact absurd hmark hset
  · exact .inr ⟨_, hp⟩

/-- A word presented while the run goes on has a step. -/
theorem step_presented_total (hmark : s.mark = none) (hp : s.port = .command w :: rest) : ∃ t, step s = .next t := by
  rcases step_presented_cases hmark hp with ⟨_, -, hs⟩ | ⟨_, t, -, -, hs⟩
  · exact ⟨_, hs⟩
  · exact ⟨t, hs⟩

/-- Settles O18: `exec_total` for the commands; a step is settled by the head of the port, and a command there by
`MARK`. -/
theorem noCommandIsLeftWithoutAnOutcome : Obligations.NoCommandIsLeftWithoutAnOutcome := by
  refine ⟨exec_total, fun s => ?_⟩
  match hp : s.port, hmark : s.mark with
  | [], _ => exact .inl ⟨s, by rw [step, takeInput, hp]⟩
  | .reset :: _, _ => exact .inl ⟨_, step_reset hp⟩
  | .command _ :: _, none => exact .inl (step_presented_total hmark hp)
  | .command w :: rest, some _ => exact .inr ⟨step_marked hmark hp, nofun, w, rest, rfl⟩

end Machine

end Sys2Proof
end

section
/-! O12 and O56. The waiting (R124) and the end of a run (R130, R132): each word that the host presents takes one step
of the run, until one is stopped or none is left. -/

namespace Sys2Proof.Machine

variable {s t : State} {w : Word} {rest : List HostInput} {k : Nat}

/-- Settles O12: the first case of `takeInput`. -/
theorem anEmptyPortWaits : Obligations.AnEmptyPortWaits := by
  intro s hp
  rw [step, takeInput, hp]

/-! ## One word of a run -/

theorem State.noFurtherCommand_iff : s.noFurtherCommand = true ↔ ∀ w rest, s.port ≠ .command w :: rest := by
  unfold State.noFurtherCommand
  split <;> simp [*]

theorem State.noFurtherCommand_of_command (hp : s.port = .command w :: rest) : s.noFurtherCommand = false :=
  Bool.eq_false_iff.mpr fun h => State.noFurtherCommand_iff.mp h w rest hp

/-- The step of a presented word takes it from the port; either the run goes on, with one output more, or the word is
stopped and gives none (R27, R112). -/
theorem step_presented_outcome (hmark : s.mark = none) (hp : s.port = .command w :: rest) :
    ∃ t, step s = .next t ∧ t.port = rest ∧
      ((t.mark = none ∧ ∃ o, t.outputs = s.outputs ++ [o]) ∨ (t.EndsUnsuccessfully ∧ t.outputs = s.outputs)) := by
  rcases step_presented_cases hmark hp with ⟨_, -, hs⟩ | ⟨_, t, -, hran, hs⟩
  · exact ⟨_, hs, rfl, .inr ⟨nofun, rfl⟩⟩
  · have hgo : t.mark = none := hran.mark_eq.trans hmark
    obtain ⟨o, hout, -⟩ := eachCommandsKindOfOutput _ { s with port := rest } _ hmark hran.exec_eq hgo
    exact ⟨t, hs, hran.port_eq, .inl ⟨hgo, o, hout⟩⟩

/-! ## The whole run -/

/-- After `j` steps the run has not ended: `MARK = None`, and a command is left. -/
def GoesOnAfter (s : State) (j : Nat) : Prop :=
  ∃ u, Host.Core.run core j s = .next u ∧ u.mark = none ∧ u.noFurtherCommand = false

theorem goesOnAfter_lt_succ (hmark : s.mark = none) (hp : s.port = .command w :: rest) (hs : step s = .next t)
    (ht : ∀ j < k, GoesOnAfter t j) : ∀ j < k + 1, GoesOnAfter s j
  | 0, _ => ⟨s, rfl, hmark, State.noFurtherCommand_of_command hp⟩
  | j + 1, hj => by
    rw [GoesOnAfter, run_succ j hs]
    exact ht j (Nat.lt_of_succ_lt_succ hj)

/-- Settles O56: by induction on the words that the host presents. A word that is stopped ends the run at once; after
one that runs, the run goes on to the end of the shorter one, one step and one output later. -/
theorem everyRunEndsInOneOfTwoWays : Obligations.EveryRunEndsInOneOfTwoWays := by
  intro s ws rest hmark hp hrest
  induction ws generalizing s with
  | nil =>
    have hend : s.noFurtherCommand = true := State.noFurtherCommand_iff.mpr (hp ▸ hrest)
    exact ⟨0, s, [], Nat.le_refl 0, rfl, (List.append_nil _).symm, hp, .inl ⟨⟨hend, hmark⟩, rfl, rfl⟩, nofun⟩
  | cons w ws ih =>
    obtain ⟨t, hs, hport, ⟨hgo, o, hout⟩ | ⟨hstop, hout⟩⟩ := step_presented_outcome hmark hp
    · obtain ⟨k, u, outs, hk, hrun, houts, huport, hend, hbefore⟩ := ih t hgo hport
      refine ⟨k + 1, u, o :: outs, Nat.succ_le_succ hk, (run_succ k hs).trans hrun, ?_, huport, ?_,
        goesOnAfter_lt_succ hmark hp hs hbefore⟩
      · rw [houts, hout, List.append_assoc, List.singleton_append]
      · simpa only [List.length_cons, Nat.add_right_cancel_iff] using hend
    · exact ⟨1, t, [], Nat.succ_le_succ (Nat.zero_le _), run_succ 0 hs, by rw [hout, List.append_nil], hport,
        .inr ⟨hstop, rfl⟩, goesOnAfter_lt_succ hmark hp hs nofun⟩

end Sys2Proof.Machine
end
